-- ==== Sys2Proof/Word.lean ====
section
/-! DEFINITION. The word types of the core (00_scope.md R5, R7): everything is an unsigned bit vector of a stated width. -/

namespace Sys2Proof

/-- A memory byte, a general register, a timer: `VLEN` = 8 bits (00_scope.md R5). -/
abbrev Byte := BitVec 8

/-- `I`, `PC`, a stack entry, an instruction word: `ILEN` = 16 bits (00_scope.md R5). -/
abbrev Word := BitVec 16

/-- The 12-bit address field `NNN` (30_encoding.md R71). -/
abbrev Addr12 := BitVec 12

/-- The 4-bit immediate `N`, the number of sprite rows of DXYN (30_encoding.md R71). -/
abbrev Nibble := BitVec 4

/-- A register index, always in 0 to 15 because the field that names it has 4 bits (10_state.md R20). -/
abbrev Reg := Fin 16

/-- `VF` = `V[15]`, the flags register (10_state.md R21). -/
abbrev vf : Reg := 15

end Sys2Proof
end

