-- ==== Sys2Proof/Syntax.lean ====
section
/-! DEFINITION. The instruction set: one constructor per row of spec/opcode_table.json (30_encoding.md R83), in the table's order. -/

namespace Sys2Proof

/-- What the decoder yields (30_encoding.md R81): one of the 34 instructions with the fields it needs, or the verdict
"unrecognized", row 35 of the table. The low nibble of 5XYN and 9XYN is ignored (R79) and is not kept. -/
inductive Instr where
  /-- Row 1, 1NNN `JP NNN` (R100). -/
  | jp (nnn : Addr12)
  /-- Row 2, 2NNN `CALL NNN` (R101). -/
  | call (nnn : Addr12)
  /-- Row 3, 00EE `RET` (R102). -/
  | ret
  /-- Row 4, 3XNN `SE Vx, NN` (R103). -/
  | seImm (x : Reg) (nn : Byte)
  /-- Row 5, 4XNN `SNE Vx, NN` (R104). -/
  | sneImm (x : Reg) (nn : Byte)
  /-- Row 6, 5XY0 `SE Vx, Vy` (R105). -/
  | seReg (x y : Reg)
  /-- Row 7, 9XY0 `SNE Vx, Vy` (R106). -/
  | sneReg (x y : Reg)
  /-- Row 8, 0NNN `SYS NNN`, the machine-language routine (R107). -/
  | sys (nnn : Addr12)
  /-- Row 9, 6XNN `LD Vx, NN` (R120). -/
  | ldImm (x : Reg) (nn : Byte)
  /-- Row 10, 7XNN `ADD Vx, NN` (R121). -/
  | addImm (x : Reg) (nn : Byte)
  /-- Row 11, 8XY0 `LD Vx, Vy` (R122). -/
  | ldReg (x y : Reg)
  /-- Row 12, 8XY1 `OR Vx, Vy` (R123). -/
  | orReg (x y : Reg)
  /-- Row 13, 8XY2 `AND Vx, Vy` (R124). -/
  | andReg (x y : Reg)
  /-- Row 14, 8XY3 `XOR Vx, Vy` (R125). -/
  | xorReg (x y : Reg)
  /-- Row 15, 8XY4 `ADD Vx, Vy` (R126). -/
  | addReg (x y : Reg)
  /-- Row 16, 8XY5 `SUB Vx, Vy` (R127). -/
  | subReg (x y : Reg)
  /-- Row 17, 8XY6 `SHR Vx, Vy` (R128). -/
  | shr (x y : Reg)
  /-- Row 18, 8XY7 `SUBN Vx, Vy` (R129). -/
  | subnReg (x y : Reg)
  /-- Row 19, 8XYE `SHL Vx, Vy` (R130). -/
  | shl (x y : Reg)
  /-- Row 20, ANNN `LD I, NNN` (R140). -/
  | ldI (nnn : Addr12)
  /-- Row 21, FX1E `ADD I, Vx` (R141). -/
  | addI (x : Reg)
  /-- Row 22, FX29 `LD F, Vx` (R142). -/
  | ldF (x : Reg)
  /-- Row 23, FX55 `LD [I], Vx` (R150). -/
  | storeRegs (x : Reg)
  /-- Row 24, FX65 `LD Vx, [I]` (R151). -/
  | loadRegs (x : Reg)
  /-- Row 25, FX33 `LD B, Vx` (R152). -/
  | bcd (x : Reg)
  /-- Row 26, DXYN `DRW Vx, Vy, N` (R161). -/
  | drw (x y : Reg) (n : Nibble)
  /-- Row 27, 00E0 `CLS` (R160). -/
  | cls
  /-- Row 28, CXNN `RND Vx, NN` (R170). -/
  | rnd (x : Reg) (nn : Byte)
  /-- Row 29, FX07 `LD Vx, DT` (R175). -/
  | ldVxDt (x : Reg)
  /-- Row 30, FX15 `LD DT, Vx` (R176). -/
  | ldDtVx (x : Reg)
  /-- Row 31, FX18 `LD ST, Vx` (R177). -/
  | ldStVx (x : Reg)
  /-- Row 32, EX9E `SKP Vx` (R185). -/
  | skp (x : Reg)
  /-- Row 33, EXA1 `SKNP Vx` (R186). -/
  | sknp (x : Reg)
  /-- Row 34, FX0A `LD Vx, K` (R187). -/
  | waitKey (x : Reg)
  /-- Row 35, the decoder's verdict on a word `w` that selects no instruction (R80, R94). -/
  | unrecognized (w : Word)
  deriving DecidableEq, Repr

end Sys2Proof
end

