-- ==== Sys2Proof/WellFormed.lean ====
section
/-! DEFINITION. Which terms of `Instr` the decoder can yield (30_encoding.md R75, R80): the checks on the two constructors
whose fields do not carry their bounds in their types. -/

namespace Sys2Proof

/-- The words of the unrecognized space (30_encoding.md R80), from the rule's own table: every word of group 0xB, and the
words of groups 0x8, 0xE, 0xF whose sub-opcode is not assigned. -/
def unrecognizedWord (w : Word) : Bool :=
  let t := w.toNat / 0x1000
  let nn := w.toNat % 0x100
  let n := w.toNat % 0x10
  t == 0xB
    || t == 0x8 && [0x8, 0x9, 0xA, 0xB, 0xC, 0xD, 0xF].contains n
    || t == 0xE && !([0x9E, 0xA1].contains nn)
    || t == 0xF && !([0x07, 0x0A, 0x15, 0x18, 0x1E, 0x29, 0x33, 0x55, 0x65].contains nn)

/-- A term is well formed when some word decodes to it. SYS is every 0NNN but 00E0 and 00EE (30_encoding.md R75);
`unrecognized` carries a word of the unrecognized space (R80); every other constructor's fields are free. -/
def Instr.wellFormed : Instr → Bool
  | .sys nnn => nnn != 0x0E0 && nnn != 0x0EE
  | .unrecognized w => unrecognizedWord w
  | .jp _ | .call _ | .ret | .seImm _ _ | .sneImm _ _ | .seReg _ _ | .sneReg _ _ => true
  | .ldImm _ _ | .addImm _ _ | .ldReg _ _ | .orReg _ _ | .andReg _ _ | .xorReg _ _ => true
  | .addReg _ _ | .subReg _ _ | .shr _ _ | .subnReg _ _ | .shl _ _ => true
  | .ldI _ | .addI _ | .ldF _ | .storeRegs _ | .loadRegs _ | .bcd _ | .drw _ _ _ | .cls | .rnd _ _ => true
  | .ldVxDt _ | .ldDtVx _ | .ldStVx _ | .skp _ | .sknp _ | .waitKey _ => true

end Sys2Proof
end

