-- ==== Sys2Proof/Decode.lean ====
section
/-! DEFINITION. The decoder (30_encoding.md R70 to R81), total on every word and on any bytes, and after it the encoder and
the opcode map of R83 as rows of mask and match. -/

namespace Sys2Proof

/-- `T` = w[15:12], the top nibble (30_encoding.md R71). -/
def fieldT (w : Word) : BitVec 4 := w.extractLsb' 12 4

/-- `X` = w[11:8], a register index (R71). -/
def fieldX (w : Word) : Reg := (w.extractLsb' 8 4).toFin

/-- `Y` = w[7:4], a register index (R71). -/
def fieldY (w : Word) : Reg := (w.extractLsb' 4 4).toFin

/-- `N` = w[3:0] (R71). -/
def fieldN (w : Word) : Nibble := w.extractLsb' 0 4

/-- `NN` = w[7:0] (R71). -/
def fieldNN (w : Word) : Byte := w.extractLsb' 0 8

/-- `NNN` = w[11:0] (R71). -/
def fieldNNN (w : Word) : Addr12 := w.extractLsb' 0 12

/-- Group 0x0: exact match of the whole word (R75). -/
def decodeGroup0 (w : Word) : Instr :=
  if w = 0x00E0 then .cls
  else if w = 0x00EE then .ret
  else .sys (fieldNNN w)

/-- Group 0x8: second dispatch on `N` (R76). -/
def decodeGroup8 (w : Word) : Instr :=
  match fieldN w with
  | 0x0#4 => .ldReg (fieldX w) (fieldY w)
  | 0x1#4 => .orReg (fieldX w) (fieldY w)
  | 0x2#4 => .andReg (fieldX w) (fieldY w)
  | 0x3#4 => .xorReg (fieldX w) (fieldY w)
  | 0x4#4 => .addReg (fieldX w) (fieldY w)
  | 0x5#4 => .subReg (fieldX w) (fieldY w)
  | 0x6#4 => .shr (fieldX w) (fieldY w)
  | 0x7#4 => .subnReg (fieldX w) (fieldY w)
  | 0xE#4 => .shl (fieldX w) (fieldY w)
  | _ => .unrecognized w

/-- Group 0xE: second dispatch on `NN` (R77). -/
def decodeGroupE (w : Word) : Instr :=
  match fieldNN w with
  | 0x9E#8 => .skp (fieldX w)
  | 0xA1#8 => .sknp (fieldX w)
  | _ => .unrecognized w

/-- Group 0xF: second dispatch on `NN` (R78). -/
def decodeGroupF (w : Word) : Instr :=
  match fieldNN w with
  | 0x07#8 => .ldVxDt (fieldX w)
  | 0x0A#8 => .waitKey (fieldX w)
  | 0x15#8 => .ldDtVx (fieldX w)
  | 0x18#8 => .ldStVx (fieldX w)
  | 0x1E#8 => .addI (fieldX w)
  | 0x29#8 => .ldF (fieldX w)
  | 0x33#8 => .bcd (fieldX w)
  | 0x55#8 => .storeRegs (fieldX w)
  | 0x65#8 => .loadRegs (fieldX w)
  | _ => .unrecognized w

/-- The decoder: primary dispatch on the top nibble (R74, R81). Groups 0x5 and 0x9 ignore `N` (R79); top nibble 0xB is
unrecognized (R80). -/
def decode (w : Word) : Instr :=
  match fieldT w with
  | 0x0#4 => decodeGroup0 w
  | 0x1#4 => .jp (fieldNNN w)
  | 0x2#4 => .call (fieldNNN w)
  | 0x3#4 => .seImm (fieldX w) (fieldNN w)
  | 0x4#4 => .sneImm (fieldX w) (fieldNN w)
  | 0x5#4 => .seReg (fieldX w) (fieldY w)
  | 0x6#4 => .ldImm (fieldX w) (fieldNN w)
  | 0x7#4 => .addImm (fieldX w) (fieldNN w)
  | 0x8#4 => decodeGroup8 w
  | 0x9#4 => .sneReg (fieldX w) (fieldY w)
  | 0xA#4 => .ldI (fieldNNN w)
  | 0xC#4 => .rnd (fieldX w) (fieldNN w)
  | 0xD#4 => .drw (fieldX w) (fieldY w) (fieldN w)
  | 0xE#4 => decodeGroupE w
  | 0xF#4 => decodeGroupF w
  | _ => .unrecognized w

/-- Why bytes hold no instruction word: there are fewer than two of them (every word is two bytes, R70). -/
inductive DecodeError where
  | truncated
  deriving DecidableEq, Repr

/-- The word of two consecutive bytes, the first the high byte (20_memory.md R52). -/
def wordOfBytes (hi lo : Byte) : Word := hi ++ lo

/-- The high byte of a word, the one at the lower address (R52). -/
def hiByte (w : Word) : Byte := w.extractLsb' 8 8

/-- The low byte of a word, the one at the higher address (R52). -/
def loByte (w : Word) : Byte := w.extractLsb' 0 8

/-- Decodes the first instruction of a byte sequence and returns the rest of it. -/
def decodeBytes : List Byte → Except DecodeError (Instr × List Byte)
  | hi :: lo :: rest => .ok (decode (wordOfBytes hi lo), rest)
  | [] => .error .truncated
  | [_] => .error .truncated

/-- A word whose four nibbles are `t`, `x`, `y`, `n` (R71, R72). -/
def wordXYN (t : BitVec 4) (x y : Reg) (n : Nibble) : Word :=
  t ++ BitVec.ofFin (w := 4) x ++ BitVec.ofFin (w := 4) y ++ n

/-- A word of top nibble `t`, register `x`, low byte `nn` (R71, R72). -/
def wordXNN (t : BitVec 4) (x : Reg) (nn : Byte) : Word :=
  t ++ BitVec.ofFin (w := 4) x ++ nn

/-- A word of top nibble `t` and low 12 bits `nnn` (R71, R72). -/
def wordNNN (t : BitVec 4) (nnn : Addr12) : Word := t ++ nnn

/-- The encoder, from the patterns of R83. 5XY0 and 9XY0 are encoded in their canonical spelling, low nibble 0 (R79). -/
def encode : Instr → Word
  | .jp nnn => wordNNN 0x1 nnn
  | .call nnn => wordNNN 0x2 nnn
  | .ret => 0x00EE
  | .seImm x nn => wordXNN 0x3 x nn
  | .sneImm x nn => wordXNN 0x4 x nn
  | .seReg x y => wordXYN 0x5 x y 0x0
  | .sneReg x y => wordXYN 0x9 x y 0x0
  | .sys nnn => wordNNN 0x0 nnn
  | .ldImm x nn => wordXNN 0x6 x nn
  | .addImm x nn => wordXNN 0x7 x nn
  | .ldReg x y => wordXYN 0x8 x y 0x0
  | .orReg x y => wordXYN 0x8 x y 0x1
  | .andReg x y => wordXYN 0x8 x y 0x2
  | .xorReg x y => wordXYN 0x8 x y 0x3
  | .addReg x y => wordXYN 0x8 x y 0x4
  | .subReg x y => wordXYN 0x8 x y 0x5
  | .shr x y => wordXYN 0x8 x y 0x6
  | .subnReg x y => wordXYN 0x8 x y 0x7
  | .shl x y => wordXYN 0x8 x y 0xE
  | .ldI nnn => wordNNN 0xA nnn
  | .addI x => wordXNN 0xF x 0x1E
  | .ldF x => wordXNN 0xF x 0x29
  | .storeRegs x => wordXNN 0xF x 0x55
  | .loadRegs x => wordXNN 0xF x 0x65
  | .bcd x => wordXNN 0xF x 0x33
  | .drw x y n => wordXYN 0xD x y n
  | .cls => 0x00E0
  | .rnd x nn => wordXNN 0xC x nn
  | .ldVxDt x => wordXNN 0xF x 0x07
  | .ldDtVx x => wordXNN 0xF x 0x15
  | .ldStVx x => wordXNN 0xF x 0x18
  | .skp x => wordXNN 0xE x 0x9E
  | .sknp x => wordXNN 0xE x 0xA1
  | .waitKey x => wordXNN 0xF x 0x0A
  | .unrecognized w => w

/-- The two bytes of an instruction as they stand in memory, first byte high (R52, R70). -/
def encodeBytes (i : Instr) : List Byte := [hiByte (encode i), loByte (encode i)]

/-- One row of the opcode map: `w` selects it when `w &&& mask = pattern` (R83, R85). -/
structure OpcodeRow where
  row : Nat
  priority : Nat
  mask : Word
  pattern : Word
  deriving DecidableEq, Repr

/-- Whether a word selects a row (R83). -/
def OpcodeRow.selects (r : OpcodeRow) (w : Word) : Bool := w &&& r.mask == r.pattern

/-- The opcode map of R83 and R85, in ascending priority: the instruction rows, then 0NNN, then the catch-all. -/
def opcodeMap : List OpcodeRow :=
  [⟨1, 1, 0xF000, 0x1000⟩, ⟨2, 1, 0xF000, 0x2000⟩, ⟨3, 1, 0xFFFF, 0x00EE⟩, ⟨4, 1, 0xF000, 0x3000⟩,
   ⟨5, 1, 0xF000, 0x4000⟩, ⟨6, 1, 0xF000, 0x5000⟩, ⟨7, 1, 0xF000, 0x9000⟩] ++
  [⟨9, 1, 0xF000, 0x6000⟩, ⟨10, 1, 0xF000, 0x7000⟩, ⟨11, 1, 0xF00F, 0x8000⟩, ⟨12, 1, 0xF00F, 0x8001⟩,
   ⟨13, 1, 0xF00F, 0x8002⟩, ⟨14, 1, 0xF00F, 0x8003⟩, ⟨15, 1, 0xF00F, 0x8004⟩, ⟨16, 1, 0xF00F, 0x8005⟩,
   ⟨17, 1, 0xF00F, 0x8006⟩, ⟨18, 1, 0xF00F, 0x8007⟩, ⟨19, 1, 0xF00F, 0x800E⟩] ++
  [⟨20, 1, 0xF000, 0xA000⟩, ⟨21, 1, 0xF0FF, 0xF01E⟩, ⟨22, 1, 0xF0FF, 0xF029⟩, ⟨23, 1, 0xF0FF, 0xF055⟩,
   ⟨24, 1, 0xF0FF, 0xF065⟩, ⟨25, 1, 0xF0FF, 0xF033⟩, ⟨26, 1, 0xF000, 0xD000⟩, ⟨27, 1, 0xFFFF, 0x00E0⟩,
   ⟨28, 1, 0xF000, 0xC000⟩] ++
  [⟨29, 1, 0xF0FF, 0xF007⟩, ⟨30, 1, 0xF0FF, 0xF015⟩, ⟨31, 1, 0xF0FF, 0xF018⟩, ⟨32, 1, 0xF0FF, 0xE09E⟩,
   ⟨33, 1, 0xF0FF, 0xE0A1⟩, ⟨34, 1, 0xF0FF, 0xF00A⟩, ⟨8, 2, 0xF000, 0x0000⟩, ⟨35, 9, 0x0000, 0x0000⟩]

/-- The row of the opcode map a term of `Instr` stands for (R83). -/
def Instr.row : Instr → Nat
  | .jp _ => 1
  | .call _ => 2
  | .ret => 3
  | .seImm _ _ => 4
  | .sneImm _ _ => 5
  | .seReg _ _ => 6
  | .sneReg _ _ => 7
  | .sys _ => 8
  | .ldImm _ _ => 9
  | .addImm _ _ => 10
  | .ldReg _ _ => 11
  | .orReg _ _ => 12
  | .andReg _ _ => 13
  | .xorReg _ _ => 14
  | .addReg _ _ => 15
  | .subReg _ _ => 16
  | .shr _ _ => 17
  | .subnReg _ _ => 18
  | .shl _ _ => 19
  | .ldI _ => 20
  | .addI _ => 21
  | .ldF _ => 22
  | .storeRegs _ => 23
  | .loadRegs _ => 24
  | .bcd _ => 25
  | .drw _ _ _ => 26
  | .cls => 27
  | .rnd _ _ => 28
  | .ldVxDt _ => 29
  | .ldDtVx _ => 30
  | .ldStVx _ => 31
  | .skp _ => 32
  | .sknp _ => 33
  | .waitKey _ => 34
  | .unrecognized _ => 35

/-- The row a decoder that walks the opcode map takes: the first one the word selects (R85). -/
def selectedRow (w : Word) : Option Nat := (opcodeMap.find? fun r => r.selects w).map OpcodeRow.row

/-- The host's probe: what the decoder reads from an instruction whose bits are `w`, numbered as the opcode table numbers
them; every instruction is one word, laid out as two bytes, the first the high byte (R52, R70). -/
def decodeTableWord (nbits w : Nat) : Option Instr :=
  let word := BitVec.ofNat 16 (w % 2 ^ nbits)
  match decodeBytes [hiByte word, loByte word] with
  | .ok (i, _) => some i
  | .error _ => none

end Sys2Proof
end

