-- ==== Sys2Proof/Config.lean ====
section
/-! DEFINITION. The parameters of the core (00_scope.md R5, R6) and the values the spec leaves free. -/

namespace Sys2Proof

/-- The quirks mode `MODE` (10_state.md R31). It changes 8XY6, 8XYE, FX55 and FX65 only. -/
inductive Mode where
  | classic
  | modern
  deriving DecidableEq, Repr, Inhabited

/-- The display buffer (10_state.md R28): 32 rows of 64 pixels, row 0 the top, column 0 the left; `d[y][x]` is the pixel
the spec stores at linear index `y * 64 + x`. -/
abbrev Display := Vector (Vector Bool 64) 32

/-- `KEYS` (10_state.md R29): one flag per key, true meaning pressed. -/
abbrev Keys := Vector Bool 16

/-- The font table: 16 glyphs of 5 bytes (00_scope.md R5, R6). -/
abbrev Font := Vector Byte 80

/-- `MEM_SIZE` (00_scope.md R5): the valid addresses are the numbers below it. -/
abbrev Config.memSize : Nat := 0x1000

/-- `PROG_BASE` (00_scope.md R5): load address of the program and reset value of `PC`. -/
abbrev Config.progBase : Nat := 0x200

/-- `FONT_BASE` (00_scope.md R5). -/
abbrev Config.fontBase : Nat := 0x050

/-- `GLYPH_LEN` (00_scope.md R5). -/
abbrev Config.glyphLen : Nat := 5

/-- The greatest length of a program image, 0x1000 - 0x200 (70_reset_and_hazards.md R231). -/
abbrev Config.maxProgram : Nat := 3584

/-- `HISTORY_CAP` (00_scope.md R5), at its default. -/
abbrev Config.historyCap : Nat := 100

/-- `IPS` (00_scope.md R6), the driver's target rate of ticks; no rule of the core reads it. -/
abbrev Config.ips : Nat := 700

/-- `TIMER_HZ` (00_scope.md R6), the driver's target rate of `DecTimers`; no rule of the core reads it. -/
abbrev Config.timerHz : Nat := 60

/-- DESIGN CHOICE (log 2): the configured `MODE` of `State.reset`. The spec states no default (10_state.md R31); a run in
the other mode starts with the transaction `Reset`, which carries its mode. -/
def Config.mode : Mode := .classic

/-- The default font, glyph by glyph (70_reset_and_hazards.md R232). -/
def Config.glyphs : List (Vector Byte 5) :=
  [#v[0xF0, 0x90, 0x90, 0x90, 0xF0], #v[0x20, 0x60, 0x20, 0x20, 0x70],
   #v[0xF0, 0x10, 0xF0, 0x80, 0xF0], #v[0xF0, 0x10, 0xF0, 0x10, 0xF0]] ++
  [#v[0x90, 0x90, 0xF0, 0x10, 0x10], #v[0xF0, 0x80, 0xF0, 0x10, 0xF0],
   #v[0xF0, 0x80, 0xF0, 0x90, 0xF0], #v[0xF0, 0x10, 0x20, 0x40, 0x40]] ++
  [#v[0xF0, 0x90, 0xF0, 0x90, 0xF0], #v[0xF0, 0x90, 0xF0, 0x10, 0xF0],
   #v[0xF0, 0x90, 0xF0, 0x90, 0x90], #v[0xE0, 0x90, 0xE0, 0x90, 0xE0]] ++
  [#v[0xF0, 0x80, 0x80, 0x80, 0xF0], #v[0xE0, 0x90, 0x90, 0x90, 0xE0],
   #v[0xF0, 0x80, 0xF0, 0x80, 0xF0], #v[0xF0, 0x80, 0xF0, 0x80, 0x80]]

/-- The 80 bytes of the default font in order (70_reset_and_hazards.md R232). -/
def Config.fontBytes : List Byte := Config.glyphs.flatMap Vector.toList

/-- The default `FONT` (00_scope.md R6). -/
def Config.font : Font := ⟨Config.fontBytes.toArray, by decide⟩

/-- Free value (log 5): the byte the environment supplies for the `n`-th free draw. CXNN reduces it below its immediate,
so that it is any value of the range of 46_random.md R170. -/
opaque Config.freeByte : Nat → Byte

/-- Free value (log 3): whether the host, once the listed transactions have run out, calls `DecTimers` and not `Tick`. Any
sequence of the two is a legal run (40_tick_cycle.md R96; 93_implementation_defined.md U19: any value). -/
opaque Config.freeDecTimers : Nat → Bool

/-- Free value (log 3): the key vector of a `Tick` past the listed transactions (10_state.md R29). -/
opaque Config.freeKeys : Nat → Keys

/-- Everything a fault leaves unspecified (60_exceptions.md R207, 93_implementation_defined.md U15). -/
structure AfterFault where
  v : Vector Byte 16
  i : Word
  pc : Word
  stack : List Word
  dt : Byte
  st : Byte
  mem : Vector Byte 4096
  disp : Display
  history : List Instr
  deriving Inhabited

/-- Free value (log 5, log 9): what registers, memory, display and timers hold after a fault. -/
opaque Config.freeAfterFault : Nat → AfterFault

end Sys2Proof
end

