-- ==== Sys2Proof/Machine/State.lean ====
section
/-! DEFINITION. The state of the core as plain data (10_state.md), the reasons a step can stop, and the state after reset. -/

namespace Sys2Proof.Machine

/-- The two terminal faults of the core (60_exceptions.md R205, R206, R207: "These two are the only faults"). -/
inductive Fault where
  /-- `MemOutOfRange(addr)`: a byte access at an address of 0x1000 or more, raised by the fetch, FX33, FX55, FX65 and DXYN
  (20_memory.md R51, R205). Safe: the spec itself ends the run here and gives nothing after it. -/
  | memOutOfRange (addr : Word)
  /-- `KeyIndexOutOfRange(k)`: EX9E or EXA1 with `V[X] > 0x0F` (48_keyboard.md R188, R206). Safe, as above. -/
  | keyIndexOutOfRange (k : Byte)
  deriving DecidableEq, Repr

/-- Why the model gives a step no meaning. -/
inductive Refusal where
  /-- An instruction whose arm of `exec` has no meaning yet; raised by no arm of this model. Safe. -/
  | notModelled (mnemonic : String)
  /-- The transaction `Reset` with a program image longer than 3584 bytes: its precondition fails
  (70_reset_and_hazards.md R230, R231; log 10). Raised by `performReset`. Safe. -/
  | programTooLong (length : Nat)
  deriving DecidableEq, Repr

/-- The status latch `STATUS` (10_state.md R34). -/
inductive Status where
  | running
  | faulted (cause : Fault)
  deriving DecidableEq, Repr

/-- A diagnostic, an output event of a tick that changes no state (00_scope.md R10, 60_exceptions.md R201 to R203). -/
inductive Diagnostic where
  /-- Code (a). -/
  | unrecognizedOpcode (w : Word)
  /-- Code (b). -/
  | machineRoutineUnsupported (w : Word)
  /-- Code (c). -/
  | stackUnderflow
  deriving DecidableEq, Repr

/-- The transactions the host invokes, one at a time (40_tick_cycle.md R90). The read-only queries change nothing and are
functions of the state (`State.soundActive`, `State.pixels`). -/
inductive HostOp where
  /-- `Tick(KEYS)` (R91). -/
  | tick (keys : Keys)
  /-- `DecTimers` (47_timers.md R178). -/
  | decTimers
  /-- `Reset(MODE, FONT, PROGRAM)` (70_reset_and_hazards.md R230). -/
  | reset (mode : Mode) (font : Font) (program : List Byte)
  deriving DecidableEq, Repr

/-- Memory as its listed bytes: addresses strictly rising, none listed that holds what an unlisted address reads as. -/
abbrev Memory := List Host.Cell

/-- The state of the core (10_state.md R20 to R34) and, below the line, the inputs and outputs of its transactions, which
are no state of the core (R29, R32, R36) and stand here because a step is a function of the state alone. -/
structure State where
  /-- `V0` to `VF` (R20). -/
  v : Vector Byte 16
  /-- The index register `I` (R22). -/
  i : Word
  /-- The program counter (R23). -/
  pc : Word
  /-- The call stack, its top first (R24). -/
  stack : List Word
  /-- The delay timer (R25). -/
  dt : Byte
  /-- The sound timer (R26). -/
  st : Byte
  /-- `MEM` (R27). -/
  mem : Memory
  /-- `DISP` (R28). -/
  disp : Display
  /-- The instruction history, oldest first (R30). -/
  history : List Instr
  /-- `MODE` (R31). -/
  mode : Mode
  /-- `STATUS` (R34). -/
  status : Status
  -- inputs and outputs
  /-- The vector `KEYS` that the current tick sampled (R29). -/
  keys : Keys
  /-- The transactions the host has still to invoke, the next one first (40_tick_cycle.md R96; log 3). -/
  host : List HostOp
  /-- The diagnostics issued so far, oldest first; nothing reads them (00_scope.md R10; log 6). -/
  diags : List Diagnostic
  /-- The number of free values drawn so far (log 5). -/
  fresh : Nat
  deriving DecidableEq, Repr

/-- Right after reset (10_state.md R37, 70_reset_and_hazards.md R230), with `MODE` as `Config.mode` names it (log 2), the
default font, which an unlisted address reads as (log 1), and no program (log 8). -/
def State.reset : State where
  v := Vector.replicate 16 0x00
  i := 0x0000
  pc := 0x0200
  stack := []
  dt := 0x00
  st := 0x00
  mem := []
  disp := Vector.replicate 32 (Vector.replicate 64 false)
  history := []
  mode := Config.mode
  status := .running
  keys := Vector.replicate 16 false
  host := []
  diags := []
  fresh := 0

end Sys2Proof.Machine
end

