-- ==== Sys2Proof/Machine/Flags.lean ====
section
/-! DEFINITION. Every value an instruction stores in `VF` implicitly (10_state.md R21). -/

namespace Sys2Proof.Machine

/-- The byte `VF` holds for a condition: 1 if it holds, else 0 (R21: "always 0 or 1"). -/
def flagByte (c : Bool) : Byte := if c then 1 else 0

/-- 8XY4: whether the 8-bit addition overflowed (42_register_alu.md R126). -/
def addCarries (a b : Byte) : Bool := decide (a.toNat + b.toNat > 255)

/-- 8XY5 and 8XY7: whether `a - b` does not borrow (R127, R129). -/
def subDoesNotBorrow (a b : Byte) : Bool := decide (a.toNat ≥ b.toNat)

/-- 8XY6: the bit shifted out of the low end (R128). -/
def shiftedOutLow (v : Byte) : Bool := v.getLsbD 0

/-- 8XYE: the bit shifted out of the high end (R130). -/
def shiftedOutHigh (v : Byte) : Bool := v.getLsbD 7

/-- FX1E: whether the new index register is 0x1000 or more (43_index.md R141). -/
def indexOverflows (r : Word) : Bool := decide (r.toNat ≥ 0x1000)

end Sys2Proof.Machine
end

