-- ==== Sys2Proof/Machine/Ops.lean ====
section
/-! DEFINITION. The named operations over memory, registers, stack, display and outputs, and taking a fault. -/

namespace Sys2Proof.Machine

/-! ## Memory (20_memory.md R50 to R54) -/

/-- What an unlisted address reads as: the contents of memory after reset with the default font and no program, that is
the font at 0x050 to 0x09F and 0x00 elsewhere (10_state.md R37, 20_memory.md R55; log 1). -/
def Memory.initial (a : Nat) : Byte :=
  if Config.fontBase ≤ a then Config.fontBytes.getD (a - Config.fontBase) 0x00 else 0x00

/-- The byte at an address. -/
def Memory.byteAt (m : Memory) (a : Nat) : Byte :=
  match m with
  | [] => Memory.initial a
  | (k, c) :: rest => if a = k then c else Memory.byteAt rest a

/-- Puts a cell before the first one of a greater address. -/
def Memory.insertCell (m : Memory) (a : Nat) (b : Byte) : Memory :=
  match m with
  | [] => [(a, b)]
  | (k, c) :: rest => if a < k then (a, b) :: (k, c) :: rest else (k, c) :: Memory.insertCell rest a b

/-- The cells of every other address. -/
def Memory.erase (m : Memory) (a : Nat) : Memory := List.filter (fun c => c.1 != a) m

/-- Writes one byte and keeps the canonical form: a byte that equals what an unlisted address reads as is not listed. -/
def Memory.set (m : Memory) (a : Nat) (b : Byte) : Memory :=
  if b = Memory.initial a then m.erase a else (m.erase a).insertCell a b

/-- The canonical form: addresses strictly rising and below 0x1000, and no byte listed that an unlisted address reads as. -/
abbrev Memory.wf (m : Memory) : Prop :=
  m.Pairwise (fun c d => c.1 < d.1) ∧ ∀ c ∈ m, c.1 < Config.memSize ∧ c.2 ≠ Memory.initial c.1

/-- Writes a block of bytes, the "write contiguous blocks" of reset (20_memory.md R50). -/
def Memory.load (m : Memory) (a : Nat) (bytes : List Byte) : Memory :=
  match bytes with
  | [] => m
  | b :: rest => Memory.load (m.set a b) (a + 1) rest

/-- `MemRead(addr, 1)` with its range check (R51). -/
def readByte (m : Memory) (a : Word) : Except Fault Byte :=
  if a.toNat ≥ Config.memSize then .error (.memOutOfRange a) else .ok (m.byteAt a.toNat)

/-- `MemWrite(addr, 1, b)` with its range check (R51). -/
def writeByte (m : Memory) (a : Word) (b : Byte) : Except Fault Memory :=
  if a.toNat ≥ Config.memSize then .error (.memOutOfRange a) else .ok (m.set a.toNat b)

/-- `MemRead(addr, 2)`, the instruction fetch: two byte reads in ascending order, first byte high (R51, R52). -/
def readWord (m : Memory) (a : Word) : Except Fault Word :=
  match readByte m a with
  | .error f => .error f
  | .ok hi =>
    match readByte m (a + 1) with
    | .error f => .error f
    | .ok lo => .ok (wordOfBytes hi lo)

/-- `n` byte reads at `a`, `a + 1`, ... in ascending order, stopping at the first that faults (R51, R54). -/
def readBytes (m : Memory) (a : Word) (n : Nat) : Except Fault (List Byte) :=
  match n with
  | 0 => .ok []
  | k + 1 =>
    match readByte m a with
    | .error f => .error f
    | .ok b =>
      match readBytes m (a + 1) k with
      | .error f => .error f
      | .ok bs => .ok (b :: bs)

/-- Byte writes at `a`, `a + 1`, ... in ascending order, stopping at the first that faults (R51, R54). -/
def writeBytes (m : Memory) (a : Word) (bytes : List Byte) : Except Fault Memory :=
  match bytes with
  | [] => .ok m
  | b :: rest =>
    match writeByte m a b with
    | .error f => .error f
    | .ok m' => writeBytes m' (a + 1) rest

/-! ## Registers, stack, timers -/

/-- Reads `V[x]` (00_scope.md R8). -/
def State.reg (s : State) (x : Reg) : Byte := s.v[x.val]

/-- `V[x] <- b` (R8). -/
def State.setReg (s : State) (x : Reg) (b : Byte) : State := { s with v := s.v.set x.val b }

/-- `VF <- 1` if the condition holds, else `VF <- 0` (10_state.md R21). -/
def State.setFlag (s : State) (c : Bool) : State := s.setReg vf (flagByte c)

/-- The two writes of a flag-writing instruction: the result first, the flag last (42_register_alu.md R131). -/
def State.setRegThenFlag (s : State) (x : Reg) (b : Byte) (c : Bool) : State := (s.setReg x b).setFlag c

/-- Writes `V[k]`, `V[k + 1]`, ... from a list of bytes. -/
def setRegsFrom (v : Vector Byte 16) (k : Nat) (bytes : List Byte) : Vector Byte 16 :=
  match bytes with
  | [] => v
  | b :: rest => setRegsFrom (v.setIfInBounds k b) (k + 1) rest

/-- `V[0] <- b0`, `V[1] <- b1`, ... (44_memory_transfer.md R151). -/
def State.setLowRegs (s : State) (bytes : List Byte) : State := { s with v := setRegsFrom s.v 0 bytes }

/-- `I <- w` (R8). -/
def State.setI (s : State) (w : Word) : State := { s with i := w }

/-- `pc <- w` (R8). -/
def State.setPc (s : State) (w : Word) : State := { s with pc := w }

/-- The advance of the fetch: `pc <- (PC + 2) mod 65536` (40_tick_cycle.md R91, R93). -/
def State.advance (s : State) : State := s.setPc (s.pc + 2)

/-- `push(w)` (R8); it cannot fail, the stack has no limit (10_state.md R24). -/
def State.push (s : State) (w : Word) : State := { s with stack := w :: s.stack }

/-- Replaces the call stack. -/
def State.setStack (s : State) (ws : List Word) : State := { s with stack := ws }

/-- `DT <- b`. -/
def State.setDt (s : State) (b : Byte) : State := { s with dt := b }

/-- `ST <- b`. -/
def State.setSt (s : State) (b : Byte) : State := { s with st := b }

/-- Replaces the memory. -/
def State.setMem (s : State) (m : Memory) : State := { s with mem := m }

/-- Replaces the display buffer. -/
def State.setDisp (s : State) (d : Display) : State := { s with disp := d }

/-- Replaces the sampled key vector (10_state.md R29). -/
def State.setKeys (s : State) (ks : Keys) : State := { s with keys := ks }

/-- Takes a free value: the next one is drawn at the next count (log 5). -/
def State.takeFresh (s : State) : State := { s with fresh := s.fresh + 1 }

/-! ## Display (45_display.md) -/

/-- `DISP[y][x]` (10_state.md R28); no coordinate outside the display is ever formed (R163), and one would read false. -/
def pixel (d : Display) (x y : Nat) : Bool :=
  if h : y < 32 ∧ x < 64 then d[y][x] else false

/-- `DISP[y][x] <- not DISP[y][x]` (R161). -/
def flipPixel (d : Display) (x y : Nat) : Display :=
  if h : y < 32 ∧ x < 64 then d.set y (d[y].set x (!d[y][x])) else d

/-- All pixels false (R160). -/
def blankDisplay : Display := Vector.replicate 32 (Vector.replicate 64 false)

/-- A sprite bit of 1 at (`x`, `y`): the pixel is inverted, and a pixel that was set is a collision (R161, R164). -/
def drawBit (x y : Nat) (c : Display × Bool) : Display × Bool :=
  (flipPixel c.1 x y, c.2 || pixel c.1 x y)

/-- One sprite row: bit 7 leftmost, columns at 64 and beyond dropped (R161, R163). -/
def drawRow (x0 y : Nat) (b : Byte) (c : Display × Bool) : Display × Bool :=
  (List.range 8).foldl
    (fun acc k => if x0 + k < 64 ∧ b.getLsbD (7 - k) = true then drawBit (x0 + k) y acc else acc) c

/-- The sprite rows from row `y` down, in order (R161). -/
def drawRows (x0 y : Nat) (rows : List Byte) (c : Display × Bool) : Display × Bool :=
  match rows with
  | [] => c
  | b :: rest => drawRows x0 (y + 1) rest (drawRow x0 y b c)

/-! ## Keys (48_keyboard.md) -/

/-- The smallest pressed key, if any (R187, R189). -/
def lowestPressed (ks : Keys) : Option Reg := (List.finRange 16).find? fun k => ks[k.val]

/-- `KEYS[k]` for an 8-bit index, with its range check (R188). -/
def keyAt (ks : Keys) (k : Byte) : Except Fault Bool :=
  if h : k.toNat < 16 then .ok ks[k.toNat] else .error (.keyIndexOutOfRange k)

/-! ## Outputs: diagnostics and history -/

/-- Issues a diagnostic: an output event, nothing else changes (00_scope.md R10). -/
def State.emit (s : State) (d : Diagnostic) : State := { s with diags := s.diags ++ [d] }

/-- A ring of capacity `HISTORY_CAP` after an entry is appended: the oldest entry is dropped when it was full (R95). -/
def appendCapped (h : List Instr) (i : Instr) : List Instr :=
  if h.length < Config.historyCap then h ++ [i] else h.drop (h.length + 1 - Config.historyCap) ++ [i]

/-- Appends an executed instruction to the history; an unrecognized word is not entered (40_tick_cycle.md R94, R95). -/
def State.record (s : State) (i : Instr) : State :=
  match i with
  | .unrecognized _ => s
  | _ => { s with history := appendCapped s.history i }

/-! ## Taking a fault (60_exceptions.md R205 to R207) -/

/-- `raise`: the operation ends the run with the named fault (00_scope.md R10). Every fault of the model goes through it. -/
def raise (f : Fault) : Host.Outcome State Fault Refusal := .fault f

/-- Ends an operation that may fault: the next state built from its result, or the fault it raised. -/
def complete {α : Type} (r : Except Fault α) (k : α → State) : Host.Outcome State Fault Refusal :=
  match r with
  | .error f => raise f
  | .ok a => .next (k a)

/-- The core after a fault: `STATUS = Faulted(cause)`, and registers, stack, memory, display, timers and history hold
values nothing constrains (R207, 10_state.md R34). `MODE` is fixed for the run (70_reset_and_hazards.md R234). -/
def State.afterFault (s : State) (f : Fault) : State :=
  let u := Config.freeAfterFault s.fresh
  { s.takeFresh with
    status := .faulted f
    v := u.v
    i := u.i
    pc := u.pc
    stack := u.stack
    dt := u.dt
    st := u.st
    mem := Memory.load [] 0 u.mem.toList
    disp := u.disp
    history := u.history.take Config.historyCap }

/-! ## The host's queries (40_tick_cycle.md R90) -/

/-- `sound_active = (ST != 0)` (47_timers.md R180). -/
def State.soundActive (s : State) : Bool := s.st != 0

/-- The read of `DISP`: the 2048 pixels, pixel (`x`, `y`) at linear index `y * 64 + x` (45_display.md R162, R165). -/
def State.pixels (s : State) : List Bool := s.disp.toList.flatMap Vector.toList

end Sys2Proof.Machine
end

