-- ==== Sys2Proof/Machine/Operands.lean ====
section
/-! DEFINITION. The operand forms: immediates, effective addresses, the source of a shift, the free draw, the skip. -/

namespace Sys2Proof.Machine

/-- `zext_16(NNN)` (30_encoding.md R73). -/
def addrOperand (nnn : Addr12) : Word := nnn.zeroExtend 16

/-- `zext_16(V[X])` (43_index.md R141, R142). -/
def State.wideReg (s : State) (x : Reg) : Word := (s.reg x).zeroExtend 16

/-- `0x050 + 5 * V[X]`, the address of a glyph (43_index.md R142). -/
def State.glyphAddress (s : State) (x : Reg) : Word :=
  BitVec.ofNat 16 Config.fontBase + BitVec.ofNat 16 Config.glyphLen * s.wideReg x

/-- The value 8XY6 and 8XYE shift: `V[Y]` in `Classic`, `V[X]` in `Modern` (42_register_alu.md R128, R130). -/
def State.shiftSource (s : State) (x y : Reg) : Byte :=
  match s.mode with
  | .classic => s.reg y
  | .modern => s.reg x

/-- `V[0]` to `V[X]`, the registers FX55 stores (44_memory_transfer.md R150). -/
def State.lowRegs (s : State) (x : Reg) : List Byte := s.v.toList.take (x.val + 1)

/-- `I` after FX55 and FX65: `I0 + X + 1` in `Classic`, `I0` in `Modern` (R150, R151, R153). -/
def State.indexAfterBlock (s : State) (x : Reg) : Word :=
  match s.mode with
  | .classic => s.i + BitVec.ofNat 16 (x.val + 1)
  | .modern => s.i

/-- The three digits FX33 stores, hundreds first (R152). -/
def bcdDigits (v : Byte) : List Byte :=
  [BitVec.ofNat 8 (v.toNat / 100), BitVec.ofNat 8 (v.toNat / 10 % 10), BitVec.ofNat 8 (v.toNat % 10)]

/-- The column a sprite starts at: `V[X] mod 64` (45_display.md R161). -/
def State.spriteX (s : State) (x : Reg) : Nat := (s.reg x).toNat % 64

/-- The row a sprite starts at: `V[Y] mod 32` (R161; 90_conflicts.md C6). -/
def State.spriteY (s : State) (y : Reg) : Nat := (s.reg y).toNat % 32

/-- How many rows of a sprite of height `n` starting at row `y0` are on the screen; only these are read (R161, R163). -/
def visibleRows (y0 : Nat) (n : Nibble) : Nat := min n.toNat (32 - y0)

/-- The draw of CXNN for an immediate other than 0: a free value reduced below it (46_random.md R170, R171; log 5). -/
def State.rand (s : State) (nn : Byte) : Byte := Config.freeByte s.fresh % nn

/-- The skip: a further 2 on `PC` when the condition holds (41_control_flow.md R108). -/
def State.skipIf (s : State) (c : Bool) : State := if c then s.setPc (s.pc + 2) else s

end Sys2Proof.Machine
end

