-- ==== Sys2Proof/Machine/Alu.lean ====
section
/-! DEFINITION. Register load, arithmetic, logic and shift instructions (42_register_alu.md). -/

namespace Sys2Proof.Machine

/-- `LD Vx, NN` (R120). -/
def execLdImm (x : Reg) (nn : Byte) (s : State) : Host.Outcome State Fault Refusal :=
  .next (s.setReg x nn)

/-- `ADD Vx, NN` (R121): wrapping, `VF` untouched. -/
def execAddImm (x : Reg) (nn : Byte) (s : State) : Host.Outcome State Fault Refusal :=
  .next (s.setReg x (s.reg x + nn))

/-- `LD Vx, Vy` (R122). -/
def execLdReg (x y : Reg) (s : State) : Host.Outcome State Fault Refusal :=
  .next (s.setReg x (s.reg y))

/-- `OR Vx, Vy` (R123): no flag. -/
def execOrReg (x y : Reg) (s : State) : Host.Outcome State Fault Refusal :=
  .next (s.setReg x (s.reg x ||| s.reg y))

/-- `AND Vx, Vy` (R124): no flag. -/
def execAndReg (x y : Reg) (s : State) : Host.Outcome State Fault Refusal :=
  .next (s.setReg x (s.reg x &&& s.reg y))

/-- `XOR Vx, Vy` (R125): no flag. -/
def execXorReg (x y : Reg) (s : State) : Host.Outcome State Fault Refusal :=
  .next (s.setReg x (s.reg x ^^^ s.reg y))

/-- `ADD Vx, Vy` (R126). -/
def execAddReg (x y : Reg) (s : State) : Host.Outcome State Fault Refusal :=
  .next (s.setRegThenFlag x (s.reg x + s.reg y) (addCarries (s.reg x) (s.reg y)))

/-- `SUB Vx, Vy` (R127): `Vx - Vy`. -/
def execSubReg (x y : Reg) (s : State) : Host.Outcome State Fault Refusal :=
  .next (s.setRegThenFlag x (s.reg x - s.reg y) (subDoesNotBorrow (s.reg x) (s.reg y)))

/-- `SHR Vx, Vy` (R128). -/
def execShr (x y : Reg) (s : State) : Host.Outcome State Fault Refusal :=
  .next (s.setRegThenFlag x (s.shiftSource x y >>> 1) (shiftedOutLow (s.shiftSource x y)))

/-- `SUBN Vx, Vy` (R129): `Vy - Vx`, into `Vx`. -/
def execSubnReg (x y : Reg) (s : State) : Host.Outcome State Fault Refusal :=
  .next (s.setRegThenFlag x (s.reg y - s.reg x) (subDoesNotBorrow (s.reg y) (s.reg x)))

/-- `SHL Vx, Vy` (R130). -/
def execShl (x y : Reg) (s : State) : Host.Outcome State Fault Refusal :=
  .next (s.setRegThenFlag x (s.shiftSource x y <<< 1) (shiftedOutHigh (s.shiftSource x y)))

end Sys2Proof.Machine
end

