-- ==== Sys2Proof/Machine/Control.lean ====
section
/-! DEFINITION. Control flow (41_control_flow.md) and the unrecognized word (40_tick_cycle.md R94). On entry `PC` holds the
address of the next sequential instruction (R93). -/

namespace Sys2Proof.Machine

/-- `JP NNN` (R100). -/
def execJp (nnn : Addr12) (s : State) : Host.Outcome State Fault Refusal :=
  .next (s.setPc (addrOperand nnn))

/-- `CALL NNN` (R101): the pushed value is the already advanced `PC`. -/
def execCall (nnn : Addr12) (s : State) : Host.Outcome State Fault Refusal :=
  .next ((s.push s.pc).setPc (addrOperand nnn))

/-- `RET` (R102): an empty stack is a diagnostic and leaves `PC` advanced (90_conflicts.md C8). -/
def execRet (s : State) : Host.Outcome State Fault Refusal :=
  match s.stack with
  | [] => .next (s.emit .stackUnderflow)
  | w :: rest => .next ((s.setStack rest).setPc w)

/-- `SE Vx, NN` (R103). -/
def execSeImm (x : Reg) (nn : Byte) (s : State) : Host.Outcome State Fault Refusal :=
  .next (s.skipIf (s.reg x == nn))

/-- `SNE Vx, NN` (R104). -/
def execSneImm (x : Reg) (nn : Byte) (s : State) : Host.Outcome State Fault Refusal :=
  .next (s.skipIf (s.reg x != nn))

/-- `SE Vx, Vy` (R105). -/
def execSeReg (x y : Reg) (s : State) : Host.Outcome State Fault Refusal :=
  .next (s.skipIf (s.reg x == s.reg y))

/-- `SNE Vx, Vy` (R106). -/
def execSneReg (x y : Reg) (s : State) : Host.Outcome State Fault Refusal :=
  .next (s.skipIf (s.reg x != s.reg y))

/-- `SYS NNN` (R107): a no-op with a diagnostic that carries the word 0NNN. -/
def execSys (nnn : Addr12) (s : State) : Host.Outcome State Fault Refusal :=
  .next (s.emit (.machineRoutineUnsupported (addrOperand nnn)))

/-- An unrecognized word (R94): a diagnostic, and nothing else. -/
def execUnrecognized (w : Word) (s : State) : Host.Outcome State Fault Refusal :=
  .next (s.emit (.unrecognizedOpcode w))

end Sys2Proof.Machine
end

