-- ==== Sys2Proof/Machine/Index.lean ====
section
/-! DEFINITION. Index register instructions (43_index.md). -/

namespace Sys2Proof.Machine

/-- `LD I, NNN` (R140). -/
def execLdI (nnn : Addr12) (s : State) : Host.Outcome State Fault Refusal :=
  .next (s.setI (addrOperand nnn))

/-- `ADD I, Vx` (R141): `VF` is set when the new `I` is 0x1000 or more and is otherwise not written. -/
def execAddI (x : Reg) (s : State) : Host.Outcome State Fault Refusal :=
  let r := s.i + s.wideReg x
  .next (if indexOverflows r then (s.setI r).setFlag true else s.setI r)

/-- `LD F, Vx` (R142): the formula on the whole 8-bit value. -/
def execLdF (x : Reg) (s : State) : Host.Outcome State Fault Refusal :=
  .next (s.setI (s.glyphAddress x))

end Sys2Proof.Machine
end

