-- ==== Sys2Proof/Machine/Keyboard.lean ====
section
/-! DEFINITION. Keyboard instructions (48_keyboard.md). The key vector is the one the current tick sampled. -/

namespace Sys2Proof.Machine

/-- `SKP Vx` (R185): the index is the value of `V[X]`, and a value above 15 faults (R188). -/
def execSkp (x : Reg) (s : State) : Host.Outcome State Fault Refusal :=
  complete (keyAt s.keys (s.reg x)) fun pressed => s.skipIf pressed

/-- `SKNP Vx` (R186). -/
def execSknp (x : Reg) (s : State) : Host.Outcome State Fault Refusal :=
  complete (keyAt s.keys (s.reg x)) fun pressed => s.skipIf (!pressed)

/-- `LD Vx, K` (R187): the lowest pressed key (R189), or `PC` rewound so that the same word runs again next tick. -/
def execWaitKey (x : Reg) (s : State) : Host.Outcome State Fault Refusal :=
  match lowestPressed s.keys with
  | some k => .next (s.setReg x (BitVec.ofNat 8 k.val))
  | none => .next (s.setPc (s.pc - 2))

end Sys2Proof.Machine
end

