-- ==== Sys2Proof/Machine/Random.lean ====
section
/-! DEFINITION. The random instruction (46_random.md). -/

namespace Sys2Proof.Machine

/-- `RND Vx, NN` (R170): for `NN = 0` nothing is drawn and the result is 0; else a fresh draw below `NN`, masked by it. -/
def execRnd (x : Reg) (nn : Byte) (s : State) : Host.Outcome State Fault Refusal :=
  if nn = 0 then .next (s.setReg x 0x00)
  else .next ((s.takeFresh).setReg x (s.rand nn &&& nn))

end Sys2Proof.Machine
end

