-- ==== Sys2Proof/Machine/Sprite.lean ====
section
/-! DEFINITION. Display instructions (45_display.md). -/

namespace Sys2Proof.Machine

/-- `CLS` (R160). -/
def execCls (s : State) : Host.Outcome State Fault Refusal :=
  .next (s.setDisp blankDisplay)

/-- `DRW Vx, Vy, N` (R161): the coordinates are read before `VF` is cleared, the bytes of the rows on the screen are read
in order, and `VF` ends as the collision flag. -/
def execDrw (x y : Reg) (n : Nibble) (s : State) : Host.Outcome State Fault Refusal :=
  complete (readBytes s.mem s.i (visibleRows (s.spriteY y) n)) fun rows =>
    let drawn := drawRows (s.spriteX x) (s.spriteY y) rows (s.disp, false)
    (s.setDisp drawn.1).setFlag drawn.2

end Sys2Proof.Machine
end

