-- ==== Sys2Proof/Machine/Timers.lean ====
section
/-! DEFINITION. Timer instructions and the countdown step of the timer unit (47_timers.md). -/

namespace Sys2Proof.Machine

/-- `LD Vx, DT` (R175). -/
def execLdVxDt (x : Reg) (s : State) : Host.Outcome State Fault Refusal :=
  .next (s.setReg x s.dt)

/-- `LD DT, Vx` (R176). -/
def execLdDtVx (x : Reg) (s : State) : Host.Outcome State Fault Refusal :=
  .next (s.setDt (s.reg x))

/-- `LD ST, Vx` (R177). -/
def execLdStVx (x : Reg) (s : State) : Host.Outcome State Fault Refusal :=
  .next (s.setSt (s.reg x))

/-- One timer's decrement: minus 1 if positive (R178). -/
def countDown (b : Byte) : Byte := if b.toNat > 0 then b - 1 else b

/-- `DecTimers` (R178): nothing while faulted, else each timer on its own condition. -/
def decTimers (s : State) : State :=
  match s.status with
  | .running => (s.setDt (countDown s.dt)).setSt (countDown s.st)
  | .faulted _ => s

end Sys2Proof.Machine
end

