-- ==== Sys2Proof/Machine/Transfer.lean ====
section
/-! DEFINITION. Memory transfer instructions (44_memory_transfer.md). -/

namespace Sys2Proof.Machine

/-- `LD [I], Vx` (R150): `V[k]` goes to `I0 + k` in both modes; only the final `I` differs. -/
def execStoreRegs (x : Reg) (s : State) : Host.Outcome State Fault Refusal :=
  complete (writeBytes s.mem s.i (s.lowRegs x)) fun m => (s.setMem m).setI (s.indexAfterBlock x)

/-- `LD Vx, [I]` (R151): `V[k]` receives the byte at `I0 + k` in both modes; only the final `I` differs. -/
def execLoadRegs (x : Reg) (s : State) : Host.Outcome State Fault Refusal :=
  complete (readBytes s.mem s.i (x.val + 1)) fun bs => (s.setLowRegs bs).setI (s.indexAfterBlock x)

/-- `LD B, Vx` (R152): three decimal digits, hundreds at the lowest address; `I` unchanged. -/
def execBcd (x : Reg) (s : State) : Host.Outcome State Fault Refusal :=
  complete (writeBytes s.mem s.i (bcdDigits (s.reg x))) fun m => s.setMem m

end Sys2Proof.Machine
end

