-- ==== Sys2Proof/Machine/Transactions.lean ====
section
/-! DEFINITION. The transactions of the core's interface (40_tick_cycle.md R90): `Tick`, `DecTimers`, `Reset`. -/

namespace Sys2Proof.Machine

/-- The fetch of a tick: the big-endian word at `PC` (R92). -/
def fetch (s : State) : Except Fault Word := readWord s.mem s.pc

/-- The history entry of an executed instruction, made after its effect (R91, R95). -/
def recordAfter (i : Instr) (o : Host.Outcome State Fault Refusal) : Host.Outcome State Fault Refusal :=
  match o with
  | .next t => .next (t.record i)
  | .fault f => .fault f
  | .refused r => .refused r

/-- Fetch, advance, decode, execute, record, with the sampled keys in place (R91). -/
def runCycle (s : State) : Host.Outcome State Fault Refusal :=
  match fetch s with
  | .error f => raise f
  | .ok w => recordAfter (decode w) (exec (decode w) s.advance)

/-- `Tick(KEYS)` (R91): a faulted core does nothing (10_state.md R34). -/
def tick (ks : Keys) (s : State) : Host.Outcome State Fault Refusal :=
  match s.status with
  | .running => runCycle (s.setKeys ks)
  | .faulted _ => .next s

/-- The state of the core after `Reset(MODE, FONT, PROGRAM)` (70_reset_and_hazards.md R230). What belongs to the host
stays: its remaining transactions, the sampled keys, the diagnostics already issued, the count of free values (log 11). -/
def resetState (mode : Mode) (font : Font) (program : List Byte) (s : State) : State :=
  { State.reset with
    mode := mode
    mem := Memory.load (Memory.load [] Config.fontBase font.toList) Config.progBase program
    keys := s.keys
    host := s.host
    diags := s.diags
    fresh := s.fresh }

/-- `Reset` with its precondition on the length of the program (R230, R231; log 10). -/
def performReset (mode : Mode) (font : Font) (program : List Byte) (s : State) : Host.Outcome State Fault Refusal :=
  if program.length ≤ Config.maxProgram then .next (resetState mode font program s)
  else .refused (.programTooLong program.length)

/-- One transaction of the host. -/
def perform (op : HostOp) (s : State) : Host.Outcome State Fault Refusal :=
  match op with
  | .tick ks => tick ks s
  | .decTimers => .next (decTimers s)
  | .reset mode font program => performReset mode font program s

/-- The host's `n`-th free choice (R96): `DecTimers`, or a `Tick` with any keys. `Reset` is called before a run and in it only
where the list says so (70_reset_and_hazards.md R243; log 3). -/
def freeOp (n : Nat) : HostOp :=
  if Config.freeDecTimers n = true then .decTimers else .tick (Config.freeKeys n)

/-- The transaction the host invokes next (R96): the head of its list, and past the list a free choice (log 3). The second
component is the state in which it is performed. -/
def nextOp (s : State) : HostOp × State :=
  match s.host with
  | op :: rest => (op, { s with host := rest })
  | [] => (freeOp s.fresh, s.takeFresh)

/-- Where an instruction must stand for the next fetch to read it: at `PC` if two bytes fit there, else at 0x200. -/
def fetchPlace (pc : Word) : Word := if pc.toNat + 1 < Config.memSize then pc else BitVec.ofNat 16 Config.progBase

/-- The host's list with a tick at its head: kept if it begins with one, else one with the keys given is put before it. -/
def tickFirst (ks : Keys) (ops : List HostOp) : List HostOp :=
  match ops with
  | .tick ks' :: rest => .tick ks' :: rest
  | [] => [.tick ks]
  | .decTimers :: rest => .tick ks :: .decTimers :: rest
  | .reset mode font program :: rest => .tick ks :: .reset mode font program :: rest

/-- Places a word where the next step, a tick of a running core, fetches it (log 8). -/
def State.placeWord (s : State) (w : Word) : State :=
  let pc := fetchPlace s.pc
  { s with
    pc := pc
    mem := (s.mem.set pc.toNat (hiByte w)).set (pc.toNat + 1) (loByte w)
    status := .running
    host := tickFirst s.keys s.host }

end Sys2Proof.Machine
end

