-- ==== Sys2Proof/Machine/Step.lean ====
section
/-! DEFINITION. One step of the machine: the next transaction of the host (40_tick_cycle.md R90, R96). -/

namespace Sys2Proof.Machine

/-- Performs the host's next transaction. -/
def step (s : State) : Host.Outcome State Fault Refusal :=
  perform (nextOp s).1 (nextOp s).2

/-- The core after its next transaction, whatever its outcome: a fault leaves `STATUS = Faulted(cause)` and the rest
unspecified (60_exceptions.md R207); a transaction outside the spec's domain is never invoked (70_reset_and_hazards.md R243)
and leaves the core as it is. -/
def afterStep (s : State) : State :=
  match step s with
  | .next t => t
  | .fault f => (nextOp s).2.afterFault f
  | .refused _ => (nextOp s).2

/-- `s` with an instruction of `nbits` bits `w` placed where `step` fetches its next instruction. -/
def State.withFetchWord (s : State) (nbits w : Nat) : State :=
  s.placeWord (BitVec.ofNat 16 (w % 2 ^ nbits))

end Sys2Proof.Machine
end

