-- ==== Sys2Proof/Safety.lean ====
section
/-! DEFINITION. The terms the claims are stated in: the frame of an instruction, the invariant of a run, the sprite as a
picture, and which registers an instruction may write. -/

namespace Sys2Proof.Machine

/-- What an instruction may change; whatever is not named here stays (00_scope.md R11). -/
structure Changes where
  regs : List Reg := []
  index : Bool := false
  pc : Bool := false
  stack : Bool := false
  delay : Bool := false
  sound : Bool := false
  /-- The bytes stored to are those at `memBase`, ..., `memBase + memLen - 1`. -/
  memBase : Nat := 0
  memLen : Nat := 0
  display : Bool := false
  diags : Bool := false
  fresh : Bool := false

/-- `t` differs from `s` in nothing but what `c` names (00_scope.md R11). No instruction changes the mode, the status, the
sampled keys, the host's transactions or the history (the history entry is the tick's, 40_tick_cycle.md R91). -/
structure Frame (c : Changes) (s t : State) : Prop where
  regs : ∀ r : Reg, r ∉ c.regs → t.reg r = s.reg r
  index : c.index = false → t.i = s.i
  pc : c.pc = false → t.pc = s.pc
  stack : c.stack = false → t.stack = s.stack
  delay : c.delay = false → t.dt = s.dt
  sound : c.sound = false → t.st = s.st
  mem : ∀ a : Nat, ¬(c.memBase ≤ a ∧ a < c.memBase + c.memLen) → t.mem.byteAt a = s.mem.byteAt a
  display : c.display = false → t.disp = s.disp
  diags : c.diags = false → t.diags = s.diags
  fresh : c.fresh = false → t.fresh = s.fresh
  mode : t.mode = s.mode
  status : t.status = s.status
  keys : t.keys = s.keys
  host : t.host = s.host
  history : t.history = s.history

/-- The invariant of a run: memory in its canonical form; `PC` at most 0x1002, as 10_state.md R23 derives; every return
address at most 0x1000 (41_control_flow.md R101); at most `HISTORY_CAP` history entries (10_state.md R30). -/
structure Inv (s : State) : Prop where
  mem : s.mem.wf
  pc : s.pc.toNat ≤ 0x1002
  stack : ∀ w ∈ s.stack, w.toNat ≤ 0x1000
  history : s.history.length ≤ Config.historyCap

/-- The registers an instruction may write, `VF` as a side effect included (10_state.md R20, R21). -/
def destinations : Instr → List Reg
  | .ldImm x _ | .addImm x _ | .ldReg x _ | .orReg x _ | .andReg x _ | .xorReg x _ | .rnd x _ => [x]
  | .ldVxDt x | .waitKey x => [x]
  | .addReg x _ | .subReg x _ | .shr x _ | .subnReg x _ | .shl x _ => [x, vf]
  | .addI _ | .drw _ _ _ => [vf]
  | .loadRegs x => (List.finRange 16).filter fun r => r.val ≤ x.val
  | .jp _ | .call _ | .ret | .seImm _ _ | .sneImm _ _ | .seReg _ _ | .sneReg _ _ | .sys _ => []
  | .ldI _ | .ldF _ | .storeRegs _ | .bcd _ | .cls | .ldDtVx _ | .ldStVx _ | .skp _ | .sknp _ => []
  | .unrecognized _ => []

/-- The four instructions whose meaning `MODE` selects (10_state.md R31). -/
def readsMode : Instr → Bool
  | .shr _ _ | .shl _ _ | .storeRegs _ | .loadRegs _ => true
  | .jp _ | .call _ | .ret | .seImm _ _ | .sneImm _ _ | .seReg _ _ | .sneReg _ _ | .sys _ => false
  | .ldImm _ _ | .addImm _ _ | .ldReg _ _ | .orReg _ _ | .andReg _ _ | .xorReg _ _ => false
  | .addReg _ _ | .subReg _ _ | .subnReg _ _ | .ldI _ | .addI _ | .ldF _ | .bcd _ | .drw _ _ _ | .cls => false
  | .rnd _ _ | .ldVxDt _ | .ldDtVx _ | .ldStVx _ | .skp _ | .sknp _ | .waitKey _ | .unrecognized _ => false

/-- The instructions that may leave `PC` other than the fetch's advance left it (10_state.md R23). -/
def writesPc : Instr → Bool
  | .jp _ | .call _ | .ret | .seImm _ _ | .sneImm _ _ | .seReg _ _ | .sneReg _ _ | .skp _ | .sknp _ | .waitKey _ => true
  | .sys _ | .ldImm _ _ | .addImm _ _ | .ldReg _ _ | .orReg _ _ | .andReg _ _ | .xorReg _ _ => false
  | .addReg _ _ | .subReg _ _ | .shr _ _ | .subnReg _ _ | .shl _ _ | .ldI _ | .addI _ | .ldF _ => false
  | .storeRegs _ | .loadRegs _ | .bcd _ | .drw _ _ _ | .cls | .rnd _ _ => false
  | .ldVxDt _ | .ldDtVx _ | .ldStVx _ | .unrecognized _ => false

/-- An outcome with its next state changed by `g`. -/
def mapNext (g : State → State) (o : Host.Outcome State Fault Refusal) : Host.Outcome State Fault Refusal :=
  match o with
  | .next t => .next (g t)
  | .fault f => .fault f
  | .refused r => .refused r

/-- Whether the sprite of `n` rows at `I`, placed with its top left corner at (`x0`, `y0`), has a bit of 1 over the pixel
(`px`, `py`): row `py - y0` is the byte at `I + (py - y0)`, its bit 7 the leftmost column (45_display.md R161). -/
def spriteCovers (s : State) (x0 y0 : Nat) (n : Nibble) (px py : Nat) : Bool :=
  decide (y0 ≤ py ∧ py < y0 + n.toNat ∧ x0 ≤ px ∧ px < x0 + 8)
    && (s.mem.byteAt (s.i.toNat + (py - y0))).getLsbD (7 - (px - x0))

/-- The first address at or after `a` that is out of range: what a block access from `a` faults with (20_memory.md R51). -/
def firstOutOfRange (a : Word) : Word := if a.toNat ≥ 0x1000 then a else 0x1000

end Sys2Proof.Machine
end

