-- ==== Sys2Proof/Certificates/Slice0/Obligations.lean ====
section
/-! DEFINITION. The statements for the provers, from the numbered rules of spec/ (OBLIGATIONS.json gives tier, basis and
cites). Every statement about an instruction names its whole effect and its frame (00_scope.md R11). The words in the decode
clauses are the opcode map's; the spec marks their values as taken from general knowledge (30_encoding.md R83, 93 G1). -/

open Sys2Proof Sys2Proof.Machine

/-! ## Encoding (30_encoding.md) -/

/-- R81, R83: decoding the two bytes of a well-formed instruction gives it back, whatever bytes follow. -/
def Obligations.DecodeOfEncodedBytesGivesTheInstruction : Prop :=
  ∀ (i : Instr) (rest : List Byte), i.wellFormed = true → decodeBytes (encodeBytes i ++ rest) = .ok (i, rest)

/-- R79, R83: encoding what a word decodes to gives the word, but for the low nibble that groups 0x5 and 0x9 ignore. -/
def Obligations.EncodeOfDecodeIsTheCanonicalWord : Prop :=
  ∀ w : Word, encode (decode w) = if fieldT w = 0x5 ∨ fieldT w = 0x9 then w &&& 0xFFF0 else w

/-- R75, R80, R81: whatever a word decodes to is well formed. -/
def Obligations.DecodedInstructionIsWellFormed : Prop :=
  ∀ w : Word, (decode w).wellFormed = true

/-- R83, R85: the dispatching decoder takes the row that a walk over the opcode map in ascending priority takes. -/
def Obligations.DecoderTakesTheFirstSelectedRow : Prop :=
  ∀ w : Word, selectedRow w = some (decode w).row

/-- R85: no word selects two rows of equal priority. -/
def Obligations.RowsOfEqualPriorityShareNoWord : Prop :=
  ∀ r ∈ opcodeMap, ∀ q ∈ opcodeMap, r.priority = q.priority → r ≠ q →
    ∀ w : Word, ¬(r.selects w = true ∧ q.selects w = true)

/-- R80: the words the decoder calls unrecognized are exactly those of the rule's table. -/
def Obligations.UnrecognizedWordsAreThoseOfTheTable : Prop :=
  ∀ w : Word, decode w = .unrecognized w ↔
    w.toNat / 0x1000 = 0xB ∨
    (w.toNat / 0x1000 = 0x8 ∧ w.toNat % 0x10 ∈ [0x8, 0x9, 0xA, 0xB, 0xC, 0xD, 0xF]) ∨
    (w.toNat / 0x1000 = 0xE ∧ w.toNat % 0x100 ∉ [0x9E, 0xA1]) ∨
    (w.toNat / 0x1000 = 0xF ∧ w.toNat % 0x100 ∉ [0x07, 0x0A, 0x15, 0x18, 0x1E, 0x29, 0x33, 0x55, 0x65])

/-- 95_test_vectors.md section 5, sample classifications (R74 to R80). -/
def Obligations.SampleWordsDecodeAsListed : Prop :=
  decode 0x00E0 = .cls ∧ decode 0x00EE = .ret ∧ decode 0x00E1 = .sys 0x0E1 ∧ decode 0x0000 = .sys 0x000 ∧
  decode 0x10E0 = .jp 0x0E0 ∧ decode 0x5AB7 = .seReg 0xA 0xB ∧ decode 0x8AB8 = .unrecognized 0x8AB8 ∧
  decode 0x8ABE = .shl 0xA 0xB ∧ decode 0xB000 = .unrecognized 0xB000 ∧ decode 0xE09E = .skp 0x0 ∧
  decode 0xE09F = .unrecognized 0xE09F ∧ decode 0xF00A = .waitKey 0x0 ∧ decode 0xF055 = .storeRegs 0x0 ∧
  decode 0xFF65 = .loadRegs 0xF ∧ decode 0xFFFF = .unrecognized 0xFFFF

/-! ## Reset (70_reset_and_hazards.md) -/

/-- R230, R231: the transaction `Reset` with a program that fits puts every piece of state at its reset value. What is the
host's (its list, the diagnostics already issued) stays, by the model's choice (log 11). -/
def Obligations.ResetPutsEveryPieceAtItsValue : Prop :=
  ∀ (mode : Mode) (font : Font) (program : List Byte) (s : State), program.length ≤ 3584 →
    ∃ t, perform (.reset mode font program) s = .next t ∧ t.mode = mode ∧ (∀ r : Reg, t.reg r = 0x00) ∧
      t.i = 0x0000 ∧ t.dt = 0x00 ∧ t.st = 0x00 ∧ t.stack = [] ∧ t.pc = 0x0200 ∧
      (∀ px py, px < 64 → py < 32 → pixel t.disp px py = false) ∧ t.history = [] ∧ t.status = .running ∧
      (∀ j (hj : j < 80), t.mem.byteAt (0x050 + j) = font[j]) ∧
      (∀ j (hj : j < program.length), t.mem.byteAt (0x200 + j) = program[j]) ∧
      (∀ a, a < 0x1000 → ¬(0x050 ≤ a ∧ a < 0x0A0) → ¬(0x200 ≤ a ∧ a < 0x200 + program.length) →
        t.mem.byteAt a = 0x00)

/-- R231 (the bound is a precondition), log 10 (the model's choice of a refusal): an image of more than 3584 bytes. -/
def Obligations.ResetRefusesAnImageThatDoesNotFit : Prop :=
  ∀ (mode : Mode) (font : Font) (program : List Byte) (s : State), 3584 < program.length →
    perform (.reset mode font program) s = .refused (.programTooLong program.length)

/-- R37 for the model's reset state, with the default font (log 1), no program (log 8); its mode is the model's choice
(log 2) and stands in no clause. -/
def Obligations.ResetStateHoldsTheListedValues : Prop :=
  (∀ r : Reg, State.reset.reg r = 0x00) ∧ State.reset.i = 0x0000 ∧ State.reset.pc = 0x0200 ∧
  State.reset.stack = [] ∧ State.reset.dt = 0x00 ∧ State.reset.st = 0x00 ∧ State.reset.history = [] ∧
  State.reset.status = .running ∧ (∀ px py, pixel State.reset.disp px py = false) ∧
  (∀ j (hj : j < 80), State.reset.mem.byteAt (0x050 + j) = Config.font[j]) ∧
  (∀ a, ¬(0x050 ≤ a ∧ a < 0x0A0) → State.reset.mem.byteAt a = 0x00)

/-! ## The step and the transactions (40_tick_cycle.md, 60_exceptions.md) -/

/-- R91 to R95: a step of a running core whose next transaction is `Tick(KEYS)` and whose fetch answers `w` is `exec` of
the decoded word, with the keys sampled and `PC` advanced by 2, and then the entry in the history. -/
def Obligations.StepRunsTheDecodedInstruction : Prop :=
  ∀ (s : State) (ks : Keys) (rest : List HostOp) (w : Word),
    s.status = .running → s.host = .tick ks :: rest → readWord s.mem s.pc = .ok w →
    (∀ t, exec (decode w) { s with host := rest, keys := ks, pc := s.pc + 2 } = .next t →
      step s = .next (t.record (decode w))) ∧
    (∀ f, exec (decode w) { s with host := rest, keys := ks, pc := s.pc + 2 } = .fault f → step s = .fault f)

/-- R51, R92, R205: a fetch at 0x0FFF or above faults at its first byte out of range, and at 0x0FFE or below it reads the
big-endian word. -/
def Obligations.FetchReadsTheWordAtPcOrFaults : Prop :=
  ∀ (s : State) (ks : Keys) (rest : List HostOp), s.status = .running → s.host = .tick ks :: rest →
    (s.pc.toNat ≤ 0x0FFE →
      readWord s.mem s.pc = .ok (s.mem.byteAt s.pc.toNat ++ s.mem.byteAt (s.pc.toNat + 1))) ∧
    (0x0FFF ≤ s.pc.toNat → step s = .fault (.memOutOfRange (firstOutOfRange s.pc)))

/-- R34, R91, R178, R207: while `STATUS` is `Faulted`, `Tick` and `DecTimers` do nothing. -/
def Obligations.FaultedCoreIgnoresTickAndDecTimers : Prop :=
  ∀ (s : State) (f : Fault) (ks : Keys), s.status = .faulted f →
    perform (.tick ks) s = .next s ∧ perform .decTimers s = .next s

/-- R34, R207: a fault latches `STATUS = Faulted(cause)`; after it only `Reset` brings the core back to `Running`. The
state after a fault is `afterStep`, the model's reading of R207 (log 9). -/
def Obligations.FaultLatchesTheStatusUntilReset : Prop :=
  ∀ (s : State) (f : Fault), step s = .fault f →
    (afterStep s).status = .faulted f ∧ (afterStep s).mode = s.mode ∧
    (∀ op : HostOp, (∀ m fo p, op ≠ .reset m fo p) → perform op (afterStep s) = .next (afterStep s)) ∧
    (∀ m fo p, p.length ≤ 3584 → ∃ u, perform (.reset m fo p) (afterStep s) = .next u ∧ u.status = .running)

/-- R96, log 3 (the host as a list, and free past it, is the model's choice): a step performs the host's next listed
transaction, and past the list `DecTimers` or a `Tick` with some keys. It holds for every value of the free choice. -/
def Obligations.StepPerformsTheHostsNextTransaction : Prop :=
  ∀ s : State,
    (∀ op rest, s.host = op :: rest → step s = perform op { s with host := rest }) ∧
    (s.host = [] → step s = perform .decTimers s.takeFresh ∨ ∃ ks, step s = perform (.tick ks) s.takeFresh)

/-- R91, R94: a tick on an unrecognized word issues diagnostic (a), advances `PC` by 2 and changes nothing else, the
history included. -/
def Obligations.UnrecognizedWordIsLoggedAndSkipped : Prop :=
  ∀ (s : State) (w : Word),
    (∃ t, exec (.unrecognized w) s = .next t ∧ t.diags = s.diags ++ [.unrecognizedOpcode w] ∧
      Frame { diags := true } s t) ∧
    (∀ (ks : Keys) (rest : List HostOp), s.status = .running → s.host = .tick ks :: rest →
      readWord s.mem s.pc = .ok w → decode w = .unrecognized w →
      step s = .next { s with pc := s.pc + 2, keys := ks, host := rest, diags := s.diags ++ [.unrecognizedOpcode w] })

/-- R98: the spin idiom, a jump to itself, leaves every piece of state but the history unchanged. -/
def Obligations.JumpToItselfChangesOnlyTheHistory : Prop :=
  ∀ (s : State) (ks : Keys) (rest : List HostOp) (a : Addr12), s.status = .running → s.host = .tick ks :: rest →
    s.pc = a.zeroExtend 16 → readWord s.mem s.pc = .ok (wordNNN 0x1 a) →
    step s = .next { s with keys := ks, host := rest, history := appendCapped s.history (.jp a) }

/-- R30, R95: a history that started empty holds, after any instructions were entered, the last 100 of them in order. -/
def Obligations.HistoryHoldsTheLastHundred : Prop :=
  ∀ l : List Instr, l.foldl appendCapped [] = l.drop (l.length - 100)

/-- R208: a tick that completes has issued at most one diagnostic. -/
def Obligations.TickIssuesAtMostOneDiagnostic : Prop :=
  ∀ (s t : State) (ks : Keys), perform (.tick ks) s = .next t →
    t.diags = s.diags ∨ ∃ d, t.diags = s.diags ++ [d]

/-- R91, R92, log 8 (the host's probe, the model's own): a word placed for the next fetch is what the next step runs. -/
def Obligations.PlacedWordIsWhatTheNextStepRuns : Prop :=
  ∀ (s : State) (w : Word), ∃ (ks : Keys) (rest : List HostOp),
    s.withFetchWord 16 w.toNat = s.placeWord w ∧ (s.placeWord w).host = .tick ks :: rest ∧ (s.placeWord w).status = .running ∧
    readWord (s.placeWord w).mem (s.placeWord w).pc = .ok w

/-! ## The timer unit (47_timers.md) -/

/-- R178: `DecTimers` decrements each timer that is positive and changes nothing else. That a faulted core does nothing is
the spec's own addition (R178, R34; decision D21); that the transaction performed leaves the host's list is the model's choice
(log 3). -/
def Obligations.DecTimersDecrementsPositiveTimers : Prop :=
  ∀ (s : State) (rest : List HostOp), s.host = .decTimers :: rest →
    (s.status = .running → ∃ t, step s = .next t ∧
      t.dt = (if 0 < s.dt.toNat then s.dt - 1 else s.dt) ∧ t.st = (if 0 < s.st.toNat then s.st - 1 else s.st) ∧
      t = { s with host := rest, dt := t.dt, st := t.st }) ∧
    (∀ f, s.status = .faulted f → step s = .next { s with host := rest })

/-- R178, R180: `n` successive countdown steps take `n` off each timer, stopping at 0, and `sound_active` holds exactly as
long as fewer steps than `ST` have been made. -/
def Obligations.CountdownStopsAtZero : Prop :=
  ∀ (s : State) (n : Nat), s.status = .running →
    (decTimers^[n] s).dt.toNat = s.dt.toNat - n ∧ (decTimers^[n] s).st.toNat = s.st.toNat - n ∧
    ((decTimers^[n] s).soundActive = true ↔ n < s.st.toNat)

/-- R175, R176, R177: the three timer instructions. -/
def Obligations.TimerInstructionsMoveTheTimers : Prop :=
  ∀ (x : Reg) (s : State),
    (∃ t, exec (.ldVxDt x) s = .next t ∧ t.reg x = s.dt ∧ Frame { regs := [x] } s t) ∧
    (∃ t, exec (.ldDtVx x) s = .next t ∧ t.dt = s.reg x ∧ Frame { delay := true } s t) ∧
    (∃ t, exec (.ldStVx x) s = .next t ∧ t.st = s.reg x ∧ Frame { sound := true } s t) ∧
    decode (wordXNN 0xF x 0x07) = .ldVxDt x ∧ decode (wordXNN 0xF x 0x15) = .ldDtVx x ∧
    decode (wordXNN 0xF x 0x18) = .ldStVx x

/-! ## Control flow (41_control_flow.md); `s.pc` is `a + 2`, the address after the instruction (R93) -/

/-- R100. -/
def Obligations.JumpSetsPcToItsAddress : Prop :=
  ∀ (nnn : Addr12) (s : State), decode (wordNNN 0x1 nnn) = .jp nnn ∧
    ∃ t, exec (.jp nnn) s = .next t ∧ t.pc = nnn.zeroExtend 16 ∧ Frame { pc := true } s t

/-- R101. -/
def Obligations.CallPushesTheAdvancedPcAndJumps : Prop :=
  ∀ (nnn : Addr12) (s : State), decode (wordNNN 0x2 nnn) = .call nnn ∧
    ∃ t, exec (.call nnn) s = .next t ∧ t.stack = s.pc :: s.stack ∧ t.pc = nnn.zeroExtend 16 ∧
      Frame { pc := true, stack := true } s t

/-- R102: with a return address on the stack it resumes there; with an empty stack it issues diagnostic (c) and leaves
`PC` advanced. -/
def Obligations.ReturnPopsOrReportsUnderflow : Prop :=
  decode 0x00EE = .ret ∧ ∀ s : State,
    (∀ w rest, s.stack = w :: rest → ∃ t, exec .ret s = .next t ∧ t.pc = w ∧ t.stack = rest ∧
      Frame { pc := true, stack := true } s t) ∧
    (s.stack = [] → ∃ t, exec .ret s = .next t ∧ t.diags = s.diags ++ [.stackUnderflow] ∧ Frame { diags := true } s t)

/-- R102, R110: a call followed by a return (whose own fetch has advanced `PC`) restores `PC` to the value after the
call's fetch advance, and the stack, and changes nothing else. -/
def Obligations.ReturnAfterCallRestoresPc : Prop :=
  ∀ (nnn : Addr12) (s : State), ∃ t u, exec (.call nnn) s = .next t ∧ exec .ret t.advance = .next u ∧ u = s

/-- R103, R104, R108. -/
def Obligations.ImmediateSkipsAddTwoWhenTheirTestHolds : Prop :=
  ∀ (x : Reg) (nn : Byte) (s : State),
    decode (wordXNN 0x3 x nn) = .seImm x nn ∧ decode (wordXNN 0x4 x nn) = .sneImm x nn ∧
    (∃ t, exec (.seImm x nn) s = .next t ∧ t.pc = (if s.reg x = nn then s.pc + 2 else s.pc) ∧
      Frame { pc := true } s t) ∧
    (∃ t, exec (.sneImm x nn) s = .next t ∧ t.pc = (if s.reg x ≠ nn then s.pc + 2 else s.pc) ∧
      Frame { pc := true } s t)

/-- R105, R106, R79, R108: for every low nibble. -/
def Obligations.RegisterSkipsAddTwoWhenTheirTestHolds : Prop :=
  ∀ (x y : Reg) (n : Nibble) (s : State),
    decode (wordXYN 0x5 x y n) = .seReg x y ∧ decode (wordXYN 0x9 x y n) = .sneReg x y ∧
    (∃ t, exec (.seReg x y) s = .next t ∧ t.pc = (if s.reg x = s.reg y then s.pc + 2 else s.pc) ∧
      Frame { pc := true } s t) ∧
    (∃ t, exec (.sneReg x y) s = .next t ∧ t.pc = (if s.reg x ≠ s.reg y then s.pc + 2 else s.pc) ∧
      Frame { pc := true } s t)

/-- R107, R75, R202: a no-op with diagnostic (b), which carries the word. -/
def Obligations.MachineRoutineOnlyIssuesItsDiagnostic : Prop :=
  ∀ (nnn : Addr12) (s : State),
    (nnn ≠ 0x0E0 → nnn ≠ 0x0EE → decode (wordNNN 0x0 nnn) = .sys nnn) ∧
    ∃ t, exec (.sys nnn) s = .next t ∧ t.diags = s.diags ++ [.machineRoutineUnsupported (wordNNN 0x0 nnn)] ∧
      Frame { diags := true } s t

/-! ## Register load, arithmetic, logic, shift (42_register_alu.md) -/

/-- R120, R121: the immediate forms; neither touches `VF` unless it is the destination. -/
def Obligations.ImmediateLoadAndAddWriteOnlyVx : Prop :=
  ∀ (x : Reg) (nn : Byte) (s : State),
    decode (wordXNN 0x6 x nn) = .ldImm x nn ∧ decode (wordXNN 0x7 x nn) = .addImm x nn ∧
    (∃ t, exec (.ldImm x nn) s = .next t ∧ t.reg x = nn ∧ Frame { regs := [x] } s t) ∧
    (∃ t, exec (.addImm x nn) s = .next t ∧ (t.reg x).toNat = ((s.reg x).toNat + nn.toNat) % 256 ∧
      Frame { regs := [x] } s t)

/-- R122 to R125: copy and the logical operations; no flag. -/
def Obligations.CopyAndLogicWriteOnlyVx : Prop :=
  ∀ (x y : Reg) (s : State),
    decode (wordXYN 0x8 x y 0x0) = .ldReg x y ∧ decode (wordXYN 0x8 x y 0x1) = .orReg x y ∧
    decode (wordXYN 0x8 x y 0x2) = .andReg x y ∧ decode (wordXYN 0x8 x y 0x3) = .xorReg x y ∧
    (∃ t, exec (.ldReg x y) s = .next t ∧ t.reg x = s.reg y ∧ Frame { regs := [x] } s t) ∧
    (∃ t, exec (.orReg x y) s = .next t ∧ t.reg x = s.reg x ||| s.reg y ∧ Frame { regs := [x] } s t) ∧
    (∃ t, exec (.andReg x y) s = .next t ∧ t.reg x = s.reg x &&& s.reg y ∧ Frame { regs := [x] } s t) ∧
    (∃ t, exec (.xorReg x y) s = .next t ∧ t.reg x = s.reg x ^^^ s.reg y ∧ Frame { regs := [x] } s t)

/-- R126, R131: the sum modulo 256, then the carry in `VF`, which wins when `x` is `VF`. -/
def Obligations.RegisterAddGivesSumAndCarry : Prop :=
  ∀ (x y : Reg) (s : State), decode (wordXYN 0x8 x y 0x4) = .addReg x y ∧
    ∃ t, exec (.addReg x y) s = .next t ∧
      t.reg vf = (if 255 < (s.reg x).toNat + (s.reg y).toNat then 1 else 0) ∧
      (x ≠ vf → (t.reg x).toNat = ((s.reg x).toNat + (s.reg y).toNat) % 256) ∧ Frame { regs := [x, vf] } s t

/-- R127, R129, R131: the difference modulo 256 in either order, then 1 in `VF` when there was no borrow. -/
def Obligations.SubtractionsGiveDifferenceAndNoBorrow : Prop :=
  ∀ (x y : Reg) (s : State),
    decode (wordXYN 0x8 x y 0x5) = .subReg x y ∧ decode (wordXYN 0x8 x y 0x7) = .subnReg x y ∧
    (∃ t, exec (.subReg x y) s = .next t ∧
      t.reg vf = (if (s.reg y).toNat ≤ (s.reg x).toNat then 1 else 0) ∧
      (x ≠ vf → (t.reg x).toNat = ((s.reg x).toNat + 256 - (s.reg y).toNat) % 256) ∧ Frame { regs := [x, vf] } s t) ∧
    (∃ t, exec (.subnReg x y) s = .next t ∧
      t.reg vf = (if (s.reg x).toNat ≤ (s.reg y).toNat then 1 else 0) ∧
      (x ≠ vf → (t.reg x).toNat = ((s.reg y).toNat + 256 - (s.reg x).toNat) % 256) ∧ Frame { regs := [x, vf] } s t)

/-- R128, R130, R131: the shifts by one; the source is `V[Y]` in Classic and `V[X]` in Modern, and `VF` ends as the bit
shifted out. -/
def Obligations.ShiftsMoveTheirSourceByOne : Prop :=
  ∀ (x y : Reg) (s : State) (v : Nat), v = (if s.mode = .classic then s.reg y else s.reg x).toNat →
    decode (wordXYN 0x8 x y 0x6) = .shr x y ∧ decode (wordXYN 0x8 x y 0xE) = .shl x y ∧
    (∃ t, exec (.shr x y) s = .next t ∧ (t.reg vf).toNat = v % 2 ∧ (x ≠ vf → (t.reg x).toNat = v / 2) ∧
      Frame { regs := [x, vf] } s t) ∧
    (∃ t, exec (.shl x y) s = .next t ∧ (t.reg vf).toNat = v / 128 ∧ (x ≠ vf → (t.reg x).toNat = v * 2 % 256) ∧
      Frame { regs := [x, vf] } s t)

/-! ## Index register (43_index.md) -/

/-- R140. -/
def Obligations.IndexLoadGivesItsAddress : Prop :=
  ∀ (nnn : Addr12) (s : State), decode (wordNNN 0xA nnn) = .ldI nnn ∧
    ∃ t, exec (.ldI nnn) s = .next t ∧ t.i = nnn.zeroExtend 16 ∧ t.i.toNat ≤ 0x0FFF ∧ Frame { index := true } s t

/-- R142; that the formula is applied to the whole 8-bit value is the spec's decision D14. -/
def Obligations.GlyphLoadAppliesTheFormulaToTheWholeByte : Prop :=
  ∀ (x : Reg) (s : State), decode (wordXNN 0xF x 0x29) = .ldF x ∧
    ∃ t, exec (.ldF x) s = .next t ∧ t.i.toNat = 0x050 + 5 * (s.reg x).toNat ∧ Frame { index := true } s t

/-- R141: the wrapped 16-bit sum; `VF` becomes 1 when it is 0x1000 or more and is otherwise not written. That `VF` is then
not cleared and that the sum wraps are the spec's decisions D12 and D13. -/
def Obligations.IndexAddFlagsAResultPastMemory : Prop :=
  ∀ (x : Reg) (s : State), decode (wordXNN 0xF x 0x1E) = .addI x ∧
    ∃ t, exec (.addI x) s = .next t ∧ t.i.toNat = (s.i.toNat + (s.reg x).toNat) % 65536 ∧
      t.reg vf = (if 0x1000 ≤ t.i.toNat then 1 else s.reg vf) ∧ Frame { regs := [vf], index := true } s t

/-! ## Memory (20_memory.md, 44_memory_transfer.md) -/

/-- R51, R57: a byte write in range is what a read of that address then gives, and no other address reads differently; a
write or read out of range faults. -/
def Obligations.ByteReadGivesTheLastWrite : Prop :=
  ∀ (m : Memory) (a : Word) (b : Byte),
    (a.toNat < 0x1000 → ∃ m', writeByte m a b = .ok m' ∧ readByte m' a = .ok b ∧
      ∀ c : Word, c ≠ a → readByte m' c = readByte m c) ∧
    (0x1000 ≤ a.toNat → writeByte m a b = .error (.memOutOfRange a) ∧ readByte m a = .error (.memOutOfRange a))

/-- R150: in range, `V[k]` goes to `I0 + k` for every `k` up to `X`, no other byte changes, and `I` ends at `I0 + X + 1`
in Classic and at `I0` in Modern; out of range it faults at the first byte out of range. -/
def Obligations.BlockStoreWritesV0ToVxAtI : Prop :=
  ∀ (x : Reg) (s : State), decode (wordXNN 0xF x 0x55) = .storeRegs x ∧
    (s.i.toNat + x.val < 0x1000 →
      ∃ t, exec (.storeRegs x) s = .next t ∧
        (∀ k : Reg, k ≤ x → t.mem.byteAt (s.i.toNat + k.val) = s.reg k) ∧
        t.i.toNat = (if s.mode = .classic then s.i.toNat + x.val + 1 else s.i.toNat) ∧
        Frame { index := true, memBase := s.i.toNat, memLen := x.val + 1 } s t) ∧
    (0x1000 ≤ s.i.toNat + x.val → exec (.storeRegs x) s = .fault (.memOutOfRange (firstOutOfRange s.i)))

/-- R151: in range, `V[k]` receives the byte at `I0 + k` for every `k` up to `X`, and `I` ends as for FX55; out of range
it faults at the first byte out of range. -/
def Obligations.BlockLoadReadsV0ToVxAtI : Prop :=
  ∀ (x : Reg) (s : State), decode (wordXNN 0xF x 0x65) = .loadRegs x ∧
    (s.i.toNat + x.val < 0x1000 →
      ∃ t, exec (.loadRegs x) s = .next t ∧
        (∀ k : Reg, k ≤ x → t.reg k = s.mem.byteAt (s.i.toNat + k.val)) ∧
        t.i.toNat = (if s.mode = .classic then s.i.toNat + x.val + 1 else s.i.toNat) ∧
        Frame { regs := (List.finRange 16).filter (fun k => k ≤ x), index := true } s t) ∧
    (0x1000 ≤ s.i.toNat + x.val → exec (.loadRegs x) s = .fault (.memOutOfRange (firstOutOfRange s.i)))

/-- R152: in range, the hundreds, tens and ones digits go to `I`, `I + 1`, `I + 2` and nothing else changes; out of range
it faults at the first byte out of range. -/
def Obligations.DecimalConversionWritesThreeDigits : Prop :=
  ∀ (x : Reg) (s : State), decode (wordXNN 0xF x 0x33) = .bcd x ∧
    (s.i.toNat + 2 < 0x1000 →
      ∃ t, exec (.bcd x) s = .next t ∧
        (t.mem.byteAt s.i.toNat).toNat = (s.reg x).toNat / 100 ∧
        (t.mem.byteAt (s.i.toNat + 1)).toNat = (s.reg x).toNat / 10 % 10 ∧
        (t.mem.byteAt (s.i.toNat + 2)).toNat = (s.reg x).toNat % 10 ∧
        Frame { memBase := s.i.toNat, memLen := 3 } s t) ∧
    (0x1000 ≤ s.i.toNat + 2 → exec (.bcd x) s = .fault (.memOutOfRange (firstOutOfRange s.i)))

/-- R60: a word whose two bytes FX55 has just stored is the word a fetch at their address reads. -/
def Obligations.StoredWordIsSeenByTheNextFetch : Prop :=
  ∀ (x k : Reg) (s : State), k < x → s.i.toNat + x.val < 0x1000 →
    ∃ t, exec (.storeRegs x) s = .next t ∧
      readWord t.mem (s.i + BitVec.ofNat 16 k.val) = .ok (s.reg k ++ s.reg (k + 1))

/-! ## Display (45_display.md) -/

/-- R160. -/
def Obligations.ClearScreenClearsEveryPixel : Prop :=
  decode 0x00E0 = .cls ∧ ∀ s : State,
    ∃ t, exec .cls s = .next t ∧ (∀ px py, px < 64 → py < 32 → pixel t.disp px py = false) ∧
      Frame { display := true } s t

/-- R161, R163, R164: with the visible rows in range, every pixel ends exclusive-ored with the sprite's bit over it, `VF`
is 1 exactly when some set pixel lies under a 1 bit, and nothing else changes; a visible row out of range faults. -/
def Obligations.DrawXorsTheSpriteAndReportsCollision : Prop :=
  ∀ (x y : Reg) (n : Nibble) (s : State) (x0 y0 : Nat), x0 = (s.reg x).toNat % 64 → y0 = (s.reg y).toNat % 32 →
    decode (wordXYN 0xD x y n) = .drw x y n ∧
    ((n = 0 ∨ s.i.toNat + min n.toNat (32 - y0) ≤ 0x1000) →
      ∃ t, exec (.drw x y n) s = .next t ∧
        (∀ px py, px < 64 → py < 32 →
          pixel t.disp px py = (pixel s.disp px py ^^ spriteCovers s x0 y0 n px py)) ∧
        (t.reg vf = 0 ∨ t.reg vf = 1) ∧
        (t.reg vf = 1 ↔ ∃ px py, px < 64 ∧ py < 32 ∧ pixel s.disp px py = true ∧ spriteCovers s x0 y0 n px py = true) ∧
        Frame { regs := [vf], display := true } s t) ∧
    ((n ≠ 0 ∧ 0x1000 < s.i.toNat + min n.toNat (32 - y0)) →
      exec (.drw x y n) s = .fault (.memOutOfRange (firstOutOfRange s.i)))

/-- R161, R164: drawing the same sprite twice at the same place restores the display. `VF` is then 1 exactly when some
pixel under a visible 1 bit was clear before the first draw: R164's shorter sentence presumes such a pixel (log 12). -/
def Obligations.DrawingTwiceRestoresTheDisplay : Prop :=
  ∀ (x y : Reg) (n : Nibble) (s : State) (x0 y0 : Nat), x0 = (s.reg x).toNat % 64 → y0 = (s.reg y).toNat % 32 →
    x ≠ vf → y ≠ vf → (n = 0 ∨ s.i.toNat + min n.toNat (32 - y0) ≤ 0x1000) →
    ∃ t u, exec (.drw x y n) s = .next t ∧ exec (.drw x y n) t = .next u ∧ u.disp = s.disp ∧
      (u.reg vf = 1 ↔ ∃ px py, px < 64 ∧ py < 32 ∧ pixel s.disp px py = false ∧ spriteCovers s x0 y0 n px py = true)

/-! ## Random (46_random.md) -/

/-- R170, R171: for `NN = 0` the result is 0 and nothing is drawn; else it is some draw below `NN`, masked by `NN`. -/
def Obligations.RandomMasksADrawBelowItsImmediate : Prop :=
  ∀ (x : Reg) (nn : Byte) (s : State), decode (wordXNN 0xC x nn) = .rnd x nn ∧
    ∃ t, exec (.rnd x nn) s = .next t ∧
      (nn = 0 → t.reg x = 0x00 ∧ Frame { regs := [x] } s t) ∧
      (nn ≠ 0 → (∃ r : Byte, r.toNat < nn.toNat ∧ t.reg x = r &&& nn) ∧ Frame { regs := [x], fresh := true } s t)

/-- R170, corner cases (1) and (2): whatever is drawn, the result is never the immediate itself unless that is 0, and it is
0 for a power of two. It holds for every value of the free draw. -/
def Obligations.RandomNeverYieldsItsImmediate : Prop :=
  ∀ (x : Reg) (nn : Byte) (s t : State), exec (.rnd x nn) s = .next t →
    (nn ≠ 0 → t.reg x ≠ nn) ∧ ((∃ k, nn.toNat = 2 ^ k) → t.reg x = 0x00)

/-! ## Keyboard (48_keyboard.md) -/

/-- R185, R186, R188: the index is the value of `V[X]`; 0 to 15 tests that key of the sampled vector, above 15 faults. -/
def Obligations.KeySkipsTestTheKeyNumberedByVx : Prop :=
  ∀ (x : Reg) (s : State),
    decode (wordXNN 0xE x 0x9E) = .skp x ∧ decode (wordXNN 0xE x 0xA1) = .sknp x ∧
    (∀ k : Reg, (s.reg x).toNat = k.val →
      (∃ t, exec (.skp x) s = .next t ∧ t.pc = (if s.keys[k.val] = true then s.pc + 2 else s.pc) ∧
        Frame { pc := true } s t) ∧
      (∃ t, exec (.sknp x) s = .next t ∧ t.pc = (if s.keys[k.val] = false then s.pc + 2 else s.pc) ∧
        Frame { pc := true } s t)) ∧
    (15 < (s.reg x).toNat → exec (.skp x) s = .fault (.keyIndexOutOfRange (s.reg x)) ∧
      exec (.sknp x) s = .fault (.keyIndexOutOfRange (s.reg x)))

/-- R187, R189: the smallest pressed key goes to `V[X]`; with none pressed `PC` is rewound by 2. -/
def Obligations.GetKeyTakesTheLowestOrRewinds : Prop :=
  ∀ (x : Reg) (s : State), decode (wordXNN 0xF x 0x0A) = .waitKey x ∧
    (∀ k : Reg, s.keys[k.val] = true → (∀ j : Reg, j < k → s.keys[j.val] = false) →
      ∃ t, exec (.waitKey x) s = .next t ∧ (t.reg x).toNat = k.val ∧ Frame { regs := [x] } s t) ∧
    ((∀ k : Reg, s.keys[k.val] = false) →
      ∃ t, exec (.waitKey x) s = .next t ∧ t.pc = s.pc - 2 ∧ Frame { pc := true } s t)

/-- R187, R190: a tick on FX0A with no key pressed changes nothing at all except the history. -/
def Obligations.KeyWaitChangesOnlyTheHistory : Prop :=
  ∀ (s : State) (ks : Keys) (rest : List HostOp) (x : Reg), s.status = .running → s.host = .tick ks :: rest →
    readWord s.mem s.pc = .ok (wordXNN 0xF x 0x0A) → (∀ k : Reg, ks[k.val] = false) →
    step s = .next { s with keys := ks, host := rest, history := appendCapped s.history (.waitKey x) }

/-! ## The whole machine -/

/-- R20, R21: no instruction writes a register other than its destinations. -/
def Obligations.RegistersChangeOnlyByTheirWriters : Prop :=
  ∀ (i : Instr) (s t : State), exec i s = .next t → ∀ r : Reg, r ∉ destinations i → t.reg r = s.reg r

/-- R22 to R26, R28, R50: each piece of the core's state beside the registers changes only by its writers. `MODE` (R31) and
`STATUS` (R34) no instruction writes, and the history entry is the tick's (R30, R91). -/
def Obligations.StateChangesOnlyByItsWriters : Prop :=
  ∀ (i : Instr) (s t : State), exec i s = .next t →
    ((∀ a, i ≠ .ldI a) → (∀ x, i ≠ .addI x) → (∀ x, i ≠ .ldF x) →
      (s.mode = .classic → (∀ x, i ≠ .storeRegs x) ∧ (∀ x, i ≠ .loadRegs x)) → t.i = s.i) ∧
    (writesPc i = false → t.pc = s.pc) ∧
    ((∀ a, i ≠ .call a) → i ≠ .ret → t.stack = s.stack) ∧
    ((∀ x, i ≠ .ldDtVx x) → t.dt = s.dt) ∧
    ((∀ x, i ≠ .ldStVx x) → t.st = s.st) ∧
    (i ≠ .cls → (∀ x y n, i ≠ .drw x y n) → t.disp = s.disp) ∧
    ((∀ x, i ≠ .storeRegs x) → (∀ x, i ≠ .bcd x) → t.mem = s.mem) ∧
    t.mode = s.mode ∧ t.status = s.status ∧ t.history = s.history

/-- R205, R206, R207: the two faults are the only ones, raised only by the instructions named, and no instruction is
refused. -/
def Obligations.OnlyTheTwoFaultsCanOccur : Prop :=
  ∀ (i : Instr) (s : State),
    (∀ r, exec i s ≠ .refused r) ∧
    ∀ f, exec i s = .fault f →
      (∃ a : Word, f = .memOutOfRange a ∧ 0x1000 ≤ a.toNat ∧
        ((∃ x, i = .storeRegs x) ∨ (∃ x, i = .loadRegs x) ∨ (∃ x, i = .bcd x) ∨ (∃ x y n, i = .drw x y n))) ∨
      (∃ x, f = .keyIndexOutOfRange (s.reg x) ∧ 15 < (s.reg x).toNat ∧ (i = .skp x ∨ i = .sknp x))

/-- R31: the mode changes the meaning of no instruction but 8XY6, 8XYE, FX55 and FX65. -/
def Obligations.ModeMattersToFourInstructionsOnly : Prop :=
  ∀ (i : Instr) (s : State) (m : Mode), readsMode i = false →
    exec i { s with mode := m } = mapNext (fun t => { t with mode := m }) (exec i s)

/-- R26, R30: no instruction reads the sound timer, and none reads the history. -/
def Obligations.SoundTimerAndHistoryAreNeverRead : Prop :=
  ∀ (i : Instr) (s : State) (b : Byte) (h : List Instr),
    ((∀ x, i ≠ .ldStVx x) → exec i (s.setSt b) = mapNext (fun t => t.setSt b) (exec i s)) ∧
    exec i { s with history := h } = mapNext (fun t => { t with history := h }) (exec i s)

/-- R29, R64: the key vector is read by EX9E, EXA1 and FX0A only. -/
def Obligations.KeysMatterToThreeInstructionsOnly : Prop :=
  ∀ (i : Instr) (s : State) (ks : Keys), (∀ x, i ≠ .skp x) → (∀ x, i ≠ .sknp x) → (∀ x, i ≠ .waitKey x) →
    exec i (s.setKeys ks) = mapNext (fun t => t.setKeys ks) (exec i s)

/-- R31, R234: `MODE` is fixed for the run: no step but one that performs `Reset` changes it. -/
def Obligations.ModeIsFixedBetweenResets : Prop :=
  ∀ s t : State, step s = .next t → (∀ m f p rest, s.host ≠ .reset m f p :: rest) → t.mode = s.mode

/-- R37: the invariant holds at reset. -/
def Obligations.ResetMeetsTheInvariant : Prop := Inv State.reset

/-- R23, R101, R30: every step, whatever its transaction and from whatever state, keeps the invariant: memory canonical,
`PC` at most 0x1002, every return address at most 0x1000, at most 100 history entries. -/
def Obligations.StepKeepsTheInvariant : Prop :=
  ∀ s t : State, Inv s → step s = .next t → Inv t
end

