-- ==== Sys2Proof/Laws/Decode.lean ====
section
/-! SUPPORT. The laws of the word layout (30_encoding.md R71, R72): the fields of a word built from its fields, and a word
from its two bytes. -/

namespace Sys2Proof

/-- The high part of a concatenation. -/
theorem extract_append_high {n m : Nat} (a : BitVec n) (b : BitVec m) : (a ++ b).extractLsb' m n = a := by
  ext k hk
  simp [BitVec.getLsbD_append, BitVec.getLsbD_eq_getElem hk]

/-- The low part of a concatenation. -/
theorem extract_append_low {n m : Nat} (a : BitVec n) (b : BitVec m) : (a ++ b).extractLsb' 0 m = b := by
  ext k hk
  simp [BitVec.getLsbD_append, hk]

/-- A part of the low part of a concatenation. -/
theorem extract_append_inner {n m i l : Nat} (a : BitVec n) (b : BitVec m) (h : i + l ≤ m) :
    (a ++ b).extractLsb' i l = b.extractLsb' i l := by
  ext k hk
  have : i + k < m := by omega
  simp [BitVec.getLsbD_append, this]

theorem fieldT_append (t : BitVec 4) (r : BitVec 12) : fieldT (t ++ r) = t :=
  extract_append_high t r

@[simp] theorem fieldT_wordNNN (t : BitVec 4) (nnn : Addr12) : fieldT (wordNNN t nnn) = t := fieldT_append t nnn

@[simp] theorem fieldNNN_wordNNN (t : BitVec 4) (nnn : Addr12) : fieldNNN (wordNNN t nnn) = nnn :=
  extract_append_low t nnn

/-- A word of nibble, register and low byte is a word of nibble and 12 bits. -/
theorem wordXNN_eq (t : BitVec 4) (x : Reg) (nn : Byte) :
    wordXNN t x nn = wordNNN t (BitVec.ofFin (w := 4) x ++ nn) := by
  unfold wordXNN wordNNN
  rw [BitVec.append_assoc]; rfl

/-- A word of four nibbles is a word of nibble, register and low byte. -/
theorem wordXYN_eq (t : BitVec 4) (x y : Reg) (n : Nibble) :
    wordXYN t x y n = wordXNN t x (BitVec.ofFin (w := 4) y ++ n) := by
  unfold wordXYN wordXNN
  rw [BitVec.append_assoc]; rfl

@[simp] theorem fieldT_wordXNN (t : BitVec 4) (x : Reg) (nn : Byte) : fieldT (wordXNN t x nn) = t := by
  rw [wordXNN_eq, fieldT_wordNNN]

@[simp] theorem fieldX_wordXNN (t : BitVec 4) (x : Reg) (nn : Byte) : fieldX (wordXNN t x nn) = x := by
  have h : (wordXNN t x nn).extractLsb' 8 4 = BitVec.ofFin (w := 4) x := by
    rw [wordXNN_eq]
    exact (extract_append_inner t (BitVec.ofFin (w := 4) x ++ nn) (by decide)).trans (extract_append_high _ nn)
  rw [fieldX, h]

@[simp] theorem fieldNN_wordXNN (t : BitVec 4) (x : Reg) (nn : Byte) : fieldNN (wordXNN t x nn) = nn :=
  extract_append_low (t ++ BitVec.ofFin (w := 4) x) nn

@[simp] theorem fieldT_wordXYN (t : BitVec 4) (x y : Reg) (n : Nibble) : fieldT (wordXYN t x y n) = t := by
  rw [wordXYN_eq, fieldT_wordXNN]

@[simp] theorem fieldX_wordXYN (t : BitVec 4) (x y : Reg) (n : Nibble) : fieldX (wordXYN t x y n) = x := by
  rw [wordXYN_eq, fieldX_wordXNN]

@[simp] theorem fieldY_wordXYN (t : BitVec 4) (x y : Reg) (n : Nibble) : fieldY (wordXYN t x y n) = y := by
  have h : (wordXYN t x y n).extractLsb' 4 4 = BitVec.ofFin (w := 4) y := by
    rw [wordXYN_eq]
    exact (extract_append_inner (t ++ BitVec.ofFin (w := 4) x) (BitVec.ofFin (w := 4) y ++ n) (by decide)).trans
      (extract_append_high _ n)
  rw [fieldY, h]

@[simp] theorem fieldN_wordXYN (t : BitVec 4) (x y : Reg) (n : Nibble) : fieldN (wordXYN t x y n) = n :=
  extract_append_low (t ++ BitVec.ofFin (w := 4) x ++ BitVec.ofFin (w := 4) y) n

/-- The two bytes of a word make it up again (20_memory.md R52). -/
@[simp] theorem wordOfBytes_hiByte_loByte (w : Word) : wordOfBytes (hiByte w) (loByte w) = w := by
  unfold wordOfBytes hiByte loByte
  ext k hk
  simp only [BitVec.getElem_append, BitVec.getElem_extractLsb']
  split
  · simp [BitVec.getLsbD_eq_getElem hk]
  · rw [show 8 + (k - 8) = k by omega, BitVec.getLsbD_eq_getElem hk]

@[simp] theorem hiByte_wordOfBytes (hi lo : Byte) : hiByte (wordOfBytes hi lo) = hi :=
  extract_append_high hi lo

@[simp] theorem loByte_wordOfBytes (hi lo : Byte) : loByte (wordOfBytes hi lo) = lo :=
  extract_append_low hi lo

/-- Every word is the one made of its fields `T` and `NNN`. -/
theorem wordNNN_fields (w : Word) : wordNNN (fieldT w) (fieldNNN w) = w := by
  unfold wordNNN fieldT fieldNNN
  ext k hk
  simp only [BitVec.getElem_append, BitVec.getElem_extractLsb']
  split
  · simp [BitVec.getLsbD_eq_getElem hk]
  · rw [show 12 + (k - 12) = k by omega, BitVec.getLsbD_eq_getElem hk]

/-- Every word is the one made of its fields `T`, `X` and `NN`. -/
theorem wordXNN_fields (w : Word) : wordXNN (fieldT w) (fieldX w) (fieldNN w) = w := by
  unfold wordXNN fieldT fieldX fieldNN
  ext k hk
  simp only [BitVec.getElem_append, BitVec.getElem_extractLsb', BitVec.ofFin_toFin]
  split
  · simp [BitVec.getLsbD_eq_getElem hk]
  · split
    · rw [show 8 + (k - 8) = k by omega, BitVec.getLsbD_eq_getElem hk]
    · rw [show 12 + (k - 8 - 4) = k by omega, BitVec.getLsbD_eq_getElem hk]

/-- Every word is the one made of its four nibbles. -/
theorem wordXYN_fields (w : Word) : wordXYN (fieldT w) (fieldX w) (fieldY w) (fieldN w) = w := by
  unfold wordXYN fieldT fieldX fieldY fieldN
  ext k hk
  simp only [BitVec.getElem_append, BitVec.getElem_extractLsb', BitVec.ofFin_toFin]
  split
  · simp [BitVec.getLsbD_eq_getElem hk]
  · split
    · rw [show 4 + (k - 4) = k by omega, BitVec.getLsbD_eq_getElem hk]
    · split
      · rw [show 8 + (k - 4 - 4) = k by omega, BitVec.getLsbD_eq_getElem hk]
      · rw [show 12 + (k - 4 - 4 - 4) = k by omega, BitVec.getLsbD_eq_getElem hk]

end Sys2Proof
end

