-- ==== Sys2Proof/Laws/Display.lean ====
section
/-! SUPPORT. The laws of the display (45_display.md): inverting one pixel, and what drawing rows does to every pixel and to
the collision flag. -/

namespace Sys2Proof.Machine

/-- Two displays with the same pixels are the same display. -/
theorem display_ext {d e : Display} (h : ∀ px py, px < 64 → py < 32 → pixel d px py = pixel e px py) : d = e := by
  ext y hy x hx
  have := h x y hx hy
  simpa [pixel, hy, hx] using this

theorem pixel_of_outside (d : Display) {px py : Nat} (h : ¬(py < 32 ∧ px < 64)) : pixel d px py = false := by
  simp only [pixel, dif_neg h]

theorem pixel_blank (px py : Nat) : pixel blankDisplay px py = false := by
  simp [pixel, blankDisplay]

/-- Inverting a pixel on the screen inverts it and no other (R161). -/
theorem pixel_flipPixel (d : Display) {x y : Nat} (hx : x < 64) (hy : y < 32) (px py : Nat) :
    pixel (flipPixel d x y) px py = (pixel d px py ^^ decide (px = x ∧ py = y)) := by
  by_cases hp : py < 32 ∧ px < 64
  · have hf : flipPixel d x y = d.set y (d[y].set x (!d[y][x])) := dif_pos ⟨hy, hx⟩
    have hr : ∀ e : Display, pixel e px py = e[py][px] := fun e => dif_pos hp
    rw [hr, hr, hf]
    by_cases h1 : y = py
    · subst h1
      by_cases h2 : x = px
      · subst h2; simp
      · have : ¬px = x := fun h => h2 h.symm
        simp [h2, this]
    · have : ¬py = y := fun h => h1 h.symm
      simp [h1, this]
  · rw [pixel_of_outside _ hp, pixel_of_outside _ hp]
    have : ¬(px = x ∧ py = y) := by rintro ⟨rfl, rfl⟩; exact hp ⟨hy, hx⟩
    simp [this]

/-- Whether column `px` lies under a 1 bit of the sprite byte `b` that starts at column `x0` (R161, R163). -/
def byteCovers (x0 : Nat) (b : Byte) (px : Nat) : Bool :=
  decide (x0 ≤ px ∧ px < x0 + 8 ∧ px < 64) && b.getLsbD (7 - (px - x0))

/-- Whether the pixel (`px`, `py`) lies under a 1 bit of the sprite rows that start at (`x0`, `y`). -/
def rowsCover (x0 y : Nat) (rows : List Byte) (px py : Nat) : Bool :=
  decide (y ≤ py ∧ py < y + rows.length) && byteCovers x0 (rows.getD (py - y) 0) px

/-- One step of `drawRow`: the bit of column `k`. -/
def drawColumn (x0 y : Nat) (b : Byte) (acc : Display × Bool) (k : Nat) : Display × Bool :=
  if x0 + k < 64 ∧ b.getLsbD (7 - k) = true then drawBit (x0 + k) y acc else acc

theorem drawRow_eq_foldl (x0 y : Nat) (b : Byte) (c : Display × Bool) :
    drawRow x0 y b c = (List.range 8).foldl (drawColumn x0 y b) c := rfl

theorem pixel_drawColumn (x0 : Nat) {y : Nat} (hy : y < 32) (b : Byte) (c : Display × Bool) (k px py : Nat) :
    pixel (drawColumn x0 y b c k).1 px py =
      (pixel c.1 px py ^^ decide (py = y ∧ px = x0 + k ∧ x0 + k < 64 ∧ b.getLsbD (7 - k) = true)) := by
  unfold drawColumn
  split
  · next h =>
    rw [drawBit, pixel_flipPixel _ h.1 hy]
    congr 1
    simp only [decide_eq_decide]
    tauto
  · next h =>
    have : ¬(py = y ∧ px = x0 + k ∧ x0 + k < 64 ∧ b.getLsbD (7 - k) = true) := fun g => h g.2.2
    simp [this]

theorem drawColumn_hit (x0 y : Nat) (b : Byte) (c : Display × Bool) (k : Nat) :
    (drawColumn x0 y b c k).2 = true ↔
      c.2 = true ∨ (x0 + k < 64 ∧ b.getLsbD (7 - k) = true ∧ pixel c.1 (x0 + k) y = true) := by
  unfold drawColumn
  split
  · next h => simp [drawBit, h]
  · next h => constructor
              · exact Or.inl
              · rintro (g | g)
                · exact g
                · exact absurd ⟨g.1, g.2.1⟩ h

theorem foldl_drawColumn (x0 : Nat) {y : Nat} (hy : y < 32) (b : Byte) (ks : List Nat) (hks : ks.Nodup)
    (c : Display × Bool) :
    (∀ px py, pixel (ks.foldl (drawColumn x0 y b) c).1 px py =
      (pixel c.1 px py ^^ decide (py = y ∧ ∃ k ∈ ks, px = x0 + k ∧ x0 + k < 64 ∧ b.getLsbD (7 - k) = true))) ∧
    ((ks.foldl (drawColumn x0 y b) c).2 = true ↔
      c.2 = true ∨ ∃ k ∈ ks, x0 + k < 64 ∧ b.getLsbD (7 - k) = true ∧ pixel c.1 (x0 + k) y = true) := by
  induction ks generalizing c with
  | nil => simp
  | cons k rest ih =>
    obtain ⟨hk, hr⟩ := List.nodup_cons.1 hks
    obtain ⟨ih1, ih2⟩ := ih hr (drawColumn x0 y b c k)
    constructor
    · intro px py
      rw [List.foldl_cons, ih1, pixel_drawColumn x0 hy, Bool.xor_assoc]
      congr 1
      by_cases h : py = y ∧ px = x0 + k ∧ x0 + k < 64 ∧ b.getLsbD (7 - k) = true
      · have h2 : ¬(py = y ∧ ∃ j ∈ rest, px = x0 + j ∧ x0 + j < 64 ∧ b.getLsbD (7 - j) = true) := by
          rintro ⟨-, j, hj, hp, -⟩
          have : j = k := by omega
          exact hk (this ▸ hj)
        have h3 : py = y ∧ ∃ j ∈ k :: rest, px = x0 + j ∧ x0 + j < 64 ∧ b.getLsbD (7 - j) = true :=
          ⟨h.1, k, by simp, h.2⟩
        simp only [decide_eq_true h, decide_eq_false h2, decide_eq_true h3]; rfl
      · rw [decide_eq_false h, Bool.false_xor, decide_eq_decide]
        constructor
        · rintro ⟨h1, j, hj, h2⟩; exact ⟨h1, j, List.mem_cons_of_mem _ hj, h2⟩
        · rintro ⟨h1, j, hj, h2⟩
          rcases List.mem_cons.1 hj with rfl | hj
          · exact absurd ⟨h1, h2⟩ h
          · exact ⟨h1, j, hj, h2⟩
    · rw [List.foldl_cons, ih2, drawColumn_hit]
      constructor
      · rintro ((h | h) | ⟨j, hj, h1, h2, h3⟩)
        · exact Or.inl h
        · exact Or.inr ⟨k, by simp, h⟩
        · refine Or.inr ⟨j, List.mem_cons_of_mem _ hj, h1, h2, ?_⟩
          rw [pixel_drawColumn x0 hy] at h3
          have : ¬(y = y ∧ x0 + j = x0 + k ∧ x0 + k < 64 ∧ b.getLsbD (7 - k) = true) := by
            rintro ⟨-, he, -⟩
            have : j = k := by omega
            exact hk (this ▸ hj)
          rwa [decide_eq_false this, Bool.xor_false] at h3
      · rintro (h | ⟨j, hj, h1, h2, h3⟩)
        · exact Or.inl (Or.inl h)
        · rcases List.mem_cons.1 hj with rfl | hj
          · exact Or.inl (Or.inr ⟨h1, h2, h3⟩)
          · refine Or.inr ⟨j, hj, h1, h2, ?_⟩
            rw [pixel_drawColumn x0 hy]
            have : ¬(y = y ∧ x0 + j = x0 + k ∧ x0 + k < 64 ∧ b.getLsbD (7 - k) = true) := by
              rintro ⟨-, he, -⟩
              have : j = k := by omega
              exact hk (this ▸ hj)
            rwa [decide_eq_false this, Bool.xor_false]

theorem byteCovers_iff (x0 : Nat) (b : Byte) (px : Nat) :
    byteCovers x0 b px = true ↔
      ∃ k ∈ List.range 8, px = x0 + k ∧ x0 + k < 64 ∧ b.getLsbD (7 - k) = true := by
  simp only [byteCovers, Bool.and_eq_true, decide_eq_true_eq, List.mem_range]
  constructor
  · rintro ⟨⟨h1, h2, h3⟩, h4⟩
    exact ⟨px - x0, by omega, by omega, by omega, h4⟩
  · rintro ⟨k, h1, rfl, h2, h3⟩
    exact ⟨⟨by omega, by omega, h2⟩, by simpa using h3⟩

/-- Drawing one row inverts exactly the pixels of that row under a 1 bit (R161, R163). -/
theorem pixel_drawRow (x0 : Nat) {y : Nat} (hy : y < 32) (b : Byte) (c : Display × Bool) (px py : Nat) :
    pixel (drawRow x0 y b c).1 px py = (pixel c.1 px py ^^ (decide (py = y) && byteCovers x0 b px)) := by
  rw [drawRow_eq_foldl, (foldl_drawColumn x0 hy b _ List.nodup_range c).1]
  congr 1
  rw [Bool.eq_iff_iff, Bool.and_eq_true, byteCovers_iff]
  simp only [decide_eq_true_eq]

/-- Drawing one row collides exactly when a pixel under a 1 bit of it was set (R164). -/
theorem drawRow_hit (x0 : Nat) {y : Nat} (hy : y < 32) (b : Byte) (c : Display × Bool) :
    (drawRow x0 y b c).2 = true ↔
      c.2 = true ∨ ∃ px, byteCovers x0 b px = true ∧ pixel c.1 px y = true := by
  rw [drawRow_eq_foldl, (foldl_drawColumn x0 hy b _ List.nodup_range c).2]
  simp only [byteCovers_iff]
  constructor
  · rintro (h | ⟨k, hk, h1, h2, h3⟩)
    · exact Or.inl h
    · exact Or.inr ⟨x0 + k, ⟨k, hk, rfl, h1, h2⟩, h3⟩
  · rintro (h | ⟨px, ⟨k, hk, rfl, h1, h2⟩, h3⟩)
    · exact Or.inl h
    · exact Or.inr ⟨k, hk, h1, h2, h3⟩

theorem rowsCover_nil (x0 y px py : Nat) : rowsCover x0 y [] px py = false := by
  unfold rowsCover
  rw [decide_eq_false (by rw [List.length_nil]; omega), Bool.false_and]

theorem rowsCover_cons (x0 y : Nat) (b : Byte) (rest : List Byte) (px py : Nat) :
    rowsCover x0 y (b :: rest) px py =
      ((decide (py = y) && byteCovers x0 b px) ^^ rowsCover x0 (y + 1) rest px py) := by
  simp only [rowsCover, List.length_cons]
  rcases Nat.lt_trichotomy py y with h | h | h
  · have h1 : ¬py = y := by omega
    have h2 : ¬y ≤ py := by omega
    have h3 : ¬y + 1 ≤ py := by omega
    simp [h1, h2, h3]
  · subst h
    have h3 : ¬py + 1 ≤ py := by omega
    simp
  · have h1 : ¬py = y := by omega
    have h3 : py - y = (py - (y + 1)) + 1 := by omega
    have h4 : (y ≤ py ∧ py < y + (rest.length + 1)) ↔ (y + 1 ≤ py ∧ py < y + 1 + rest.length) := by omega
    simp [h1, h3, h4]

/-- Drawing rows that stay on the screen inverts exactly the pixels under their 1 bits, and collides exactly when one of
those pixels was set (R161, R163, R164). -/
theorem drawRows_spec (x0 : Nat) (rows : List Byte) {y : Nat} (hy : y + rows.length ≤ 32) (c : Display × Bool) :
    (∀ px py, pixel (drawRows x0 y rows c).1 px py = (pixel c.1 px py ^^ rowsCover x0 y rows px py)) ∧
    ((drawRows x0 y rows c).2 = true ↔
      c.2 = true ∨ ∃ px py, rowsCover x0 y rows px py = true ∧ pixel c.1 px py = true) := by
  induction rows generalizing y c with
  | nil => simp [drawRows, rowsCover_nil]
  | cons b rest ih =>
    simp only [List.length_cons] at hy
    have hy' : y < 32 := by omega
    obtain ⟨ih1, ih2⟩ := ih (y := y + 1) (by omega) (drawRow x0 y b c)
    constructor
    · intro px py
      rw [drawRows, ih1, pixel_drawRow x0 hy', rowsCover_cons, Bool.xor_assoc]
    · rw [drawRows, ih2, drawRow_hit x0 hy']
      constructor
      · rintro ((h | ⟨px, h1, h2⟩) | ⟨px, py, h1, h2⟩)
        · exact Or.inl h
        · refine Or.inr ⟨px, y, ?_, h2⟩
          rw [rowsCover_cons, h1]
          simp [rowsCover]
        · have hne : py ≠ y := by
            rintro rfl
            simp [rowsCover] at h1
          refine Or.inr ⟨px, py, ?_, ?_⟩
          · rw [rowsCover_cons, h1]; simp [hne]
          · rw [pixel_drawRow x0 hy'] at h2; simpa [hne] using h2
      · rintro (h | ⟨px, py, h1, h2⟩)
        · exact Or.inl (Or.inl h)
        · by_cases hne : py = y
          · subst hne
            refine Or.inl (Or.inr ⟨px, ?_, h2⟩)
            rw [rowsCover_cons] at h1
            simpa [rowsCover] using h1
          · refine Or.inr ⟨px, py, ?_, ?_⟩
            · rw [rowsCover_cons] at h1; simpa [hne] using h1
            · rw [pixel_drawRow x0 hy']; simpa [hne] using h2

end Sys2Proof.Machine
end

