-- ==== Sys2Proof/Laws/Memory.lean ====
section
/-! SUPPORT. The laws of memory: a read gives the last write, a write leaves other addresses alone, every operation keeps the
canonical form, and what the byte and block accesses answer (20_memory.md R51, R54, R57). -/

namespace Sys2Proof.Machine

/-! ## One byte -/

theorem Memory.byteAt_erase (m : Memory) (a c : Nat) :
    (m.erase a).byteAt c = if c = a then Memory.initial a else m.byteAt c := by
  induction m with
  | nil => simp [Memory.erase, Memory.byteAt]; intro h; rw [h]
  | cons p rest ih =>
    obtain ⟨k, b⟩ := p
    simp only [Memory.erase] at ih ⊢
    by_cases hk : k = a
    · subst hk
      simp only [List.filter_cons, bne_self_eq_false, Bool.false_eq_true, if_false, ih, Memory.byteAt]
      split <;> rfl
    · simp only [List.filter_cons, bne_iff_ne, ne_eq, hk, not_false_eq_true, if_true, Memory.byteAt, ih]
      by_cases hc : c = k
      · simp [hc, hk]
      · simp [hc]

theorem Memory.byteAt_insertCell (m : Memory) (a c : Nat) (b : Byte) (hm : ∀ p ∈ m, p.1 ≠ a) :
    (m.insertCell a b).byteAt c = if c = a then b else m.byteAt c := by
  induction m with
  | nil => simp [Memory.insertCell, Memory.byteAt]
  | cons p rest ih =>
    obtain ⟨k, d⟩ := p
    have hk : k ≠ a := hm (k, d) (by simp)
    have ih' := ih fun p hp => hm p (List.mem_cons_of_mem _ hp)
    simp only [Memory.insertCell]
    split
    · simp [Memory.byteAt]
    · simp only [Memory.byteAt, ih']
      by_cases hc : c = k
      · simp [hc, hk]
      · simp [hc]

theorem Memory.erase_ne (m : Memory) (a : Nat) : ∀ p ∈ m.erase a, p.1 ≠ a := by
  simp [Memory.erase]

/-- Read after write, on every memory, canonical or not (20_memory.md R57). -/
theorem Memory.byteAt_set (m : Memory) (a c : Nat) (b : Byte) :
    (m.set a b).byteAt c = if c = a then b else m.byteAt c := by
  unfold Memory.set
  split
  · next h => rw [Memory.byteAt_erase, h]
  · rw [Memory.byteAt_insertCell _ _ _ _ (Memory.erase_ne m a), Memory.byteAt_erase]
    split <;> simp_all

@[simp] theorem Memory.byteAt_set_self (m : Memory) (a : Nat) (b : Byte) : (m.set a b).byteAt a = b := by
  simp [Memory.byteAt_set]

theorem Memory.byteAt_set_of_ne (m : Memory) {a c : Nat} (b : Byte) (h : c ≠ a) :
    (m.set a b).byteAt c = m.byteAt c := by
  simp [Memory.byteAt_set, h]

/-! ## The canonical form -/

theorem Memory.wf_nil : Memory.wf [] := ⟨List.Pairwise.nil, by simp⟩

theorem Memory.erase_wf {m : Memory} (h : m.wf) (a : Nat) : (m.erase a).wf :=
  ⟨h.1.filter _, fun c hc => h.2 c (List.mem_of_mem_filter hc)⟩

theorem Memory.mem_insertCell {m : Memory} {a : Nat} {b : Byte} {p : Host.Cell} :
    p ∈ m.insertCell a b ↔ p = (a, b) ∨ p ∈ m := by
  induction m with
  | nil => simp [Memory.insertCell]
  | cons q rest ih =>
    obtain ⟨k, d⟩ := q
    simp only [Memory.insertCell]
    split
    · simp
    · rw [List.mem_cons, ih, List.mem_cons]; tauto

theorem Memory.insertCell_pairwise {m : Memory} (a : Nat) (b : Byte) (hm : ∀ p ∈ m, p.1 ≠ a)
    (h : m.Pairwise (fun c d => c.1 < d.1)) : (m.insertCell a b).Pairwise (fun c d => c.1 < d.1) := by
  induction m with
  | nil => simp [Memory.insertCell]
  | cons q rest ih =>
    obtain ⟨k, d⟩ := q
    have hk : k ≠ a := hm (k, d) (by simp)
    obtain ⟨h1, h2⟩ := List.pairwise_cons.1 h
    simp only [Memory.insertCell]
    split
    · next hlt =>
      refine List.pairwise_cons.2 ⟨fun p hp => ?_, h⟩
      rcases List.mem_cons.1 hp with rfl | hp
      · exact hlt
      · exact hlt.trans (h1 p hp)
    · next hge =>
      refine List.pairwise_cons.2 ⟨fun p hp => ?_, ih (fun p hp => hm p (List.mem_cons_of_mem _ hp)) h2⟩
      rcases Memory.mem_insertCell.1 hp with rfl | hp
      · show k < a
        omega
      · exact h1 p hp

/-- A write below 0x1000 keeps the canonical form. -/
theorem Memory.set_wf {m : Memory} (h : m.wf) {a : Nat} (ha : a < 0x1000) (b : Byte) : (m.set a b).wf := by
  unfold Memory.set
  split
  · exact Memory.erase_wf h a
  · next hb =>
    have he := Memory.erase_wf h a
    refine ⟨Memory.insertCell_pairwise a b (Memory.erase_ne m a) he.1, fun c hc => ?_⟩
    rcases Memory.mem_insertCell.1 hc with rfl | hc
    · exact ⟨ha, hb⟩
    · exact he.2 c hc

theorem Memory.load_wf (bytes : List Byte) {m : Memory} (h : m.wf) {a : Nat} (ha : a + bytes.length ≤ 0x1000) :
    (m.load a bytes).wf := by
  induction bytes generalizing m a with
  | nil => exact h
  | cons b rest ih =>
    simp only [List.length_cons] at ha
    exact ih (Memory.set_wf h (by omega) b) (by omega)

/-- A block write puts byte `k` at `a + k` and leaves every other address alone (20_memory.md R50). -/
theorem Memory.byteAt_load (bytes : List Byte) (m : Memory) (a c : Nat) :
    (m.load a bytes).byteAt c = if a ≤ c ∧ c < a + bytes.length then bytes.getD (c - a) 0 else m.byteAt c := by
  induction bytes generalizing m a with
  | nil => simp [Memory.load]
  | cons b rest ih =>
    rw [Memory.load, ih, Memory.byteAt_set]
    simp only [List.length_cons]
    rcases Nat.lt_trichotomy c a with h | h | h
    · rw [if_neg (by omega), if_neg (by omega), if_neg (by omega)]
    · subst h
      rw [if_neg (by omega), if_pos rfl, if_pos (by omega)]; simp
    · have h3 : c - a = (c - (a + 1)) + 1 := by omega
      by_cases h4 : c < a + 1 + rest.length
      · rw [if_pos ⟨by omega, h4⟩, if_pos ⟨by omega, by omega⟩, h3]; rfl
      · rw [if_neg (by omega), if_neg (by omega), if_neg (by omega)]

/-! ## The accesses with their range check -/

theorem readByte_eq_ok {m : Memory} {a : Word} (h : a.toNat < 0x1000) : readByte m a = .ok (m.byteAt a.toNat) := by
  simp only [readByte, Config.memSize]; rw [if_neg (by omega)]

theorem readByte_eq_error {m : Memory} {a : Word} (h : 0x1000 ≤ a.toNat) : readByte m a = .error (.memOutOfRange a) := by
  simp only [readByte, Config.memSize]; rw [if_pos h]

theorem writeByte_eq_ok {m : Memory} {a : Word} (b : Byte) (h : a.toNat < 0x1000) :
    writeByte m a b = .ok (m.set a.toNat b) := by
  simp only [writeByte, Config.memSize]; rw [if_neg (by omega)]

theorem writeByte_eq_error {m : Memory} {a : Word} (b : Byte) (h : 0x1000 ≤ a.toNat) :
    writeByte m a b = .error (.memOutOfRange a) := by
  simp only [writeByte, Config.memSize]; rw [if_pos h]

theorem word_succ_toNat {a : Word} (h : a.toNat < 0x1000) : (a + 1).toNat = a.toNat + 1 := by
  rw [BitVec.toNat_add]; simp; omega

/-- A block read inside memory answers the bytes at consecutive addresses (20_memory.md R54). -/
theorem readBytes_eq_ok (m : Memory) (n : Nat) (a : Word) (h : n = 0 ∨ a.toNat + n ≤ 0x1000) :
    readBytes m a n = .ok ((List.range n).map fun k => m.byteAt (a.toNat + k)) := by
  induction n generalizing a with
  | zero => rfl
  | succ k ih =>
    have ha : a.toNat < 0x1000 := by omega
    rw [readBytes, readByte_eq_ok ha, ih (a + 1) (by rw [word_succ_toNat ha]; omega), word_succ_toNat ha,
      List.range_succ_eq_map]
    simp [Function.comp_def, Nat.add_assoc, Nat.add_comm 1]

/-- A block read that leaves memory faults at the first address out of range (R51). -/
theorem readBytes_eq_error (m : Memory) (n : Nat) (a : Word) (hn : n ≠ 0) (h : 0x1000 < a.toNat + n) :
    readBytes m a n = .error (.memOutOfRange (if a.toNat ≥ 0x1000 then a else 0x1000)) := by
  induction n generalizing a with
  | zero => exact absurd rfl hn
  | succ k ih =>
    by_cases ha : a.toNat < 0x1000
    · have hs := word_succ_toNat ha
      rw [readBytes, readByte_eq_ok ha, ih (a + 1) (by omega) (by omega), hs]
      rw [if_neg (by omega : ¬a.toNat ≥ 0x1000)]
      by_cases h2 : a.toNat + 1 ≥ 0x1000
      · have : a + 1 = 0x1000 := BitVec.eq_of_toNat_eq (by rw [hs]; simp; omega)
        rw [if_pos h2, this]
      · rw [if_neg h2]
    · rw [readBytes, readByte_eq_error (by omega), if_pos (by omega)]

/-- A block write inside memory is the block write of reset (R54). -/
theorem writeBytes_eq_ok (bytes : List Byte) (m : Memory) (a : Word) (h : bytes = [] ∨ a.toNat + bytes.length ≤ 0x1000) :
    writeBytes m a bytes = .ok (m.load a.toNat bytes) := by
  induction bytes generalizing m a with
  | nil => rfl
  | cons b rest ih =>
    have h' : a.toNat + (rest.length + 1) ≤ 0x1000 := by simpa using h
    have ha : a.toNat < 0x1000 := by omega
    rw [writeBytes, writeByte_eq_ok b ha, Memory.load]
    simp only
    rw [ih _ (a + 1) (by rw [word_succ_toNat ha]; right; omega), word_succ_toNat ha]

/-- A block write that leaves memory faults at the first address out of range (R51). -/
theorem writeBytes_eq_error (bytes : List Byte) (m : Memory) (a : Word) (hb : bytes ≠ [])
    (h : 0x1000 < a.toNat + bytes.length) :
    writeBytes m a bytes = .error (.memOutOfRange (if a.toNat ≥ 0x1000 then a else 0x1000)) := by
  induction bytes generalizing m a with
  | nil => exact absurd rfl hb
  | cons b rest ih =>
    simp only [List.length_cons] at h
    by_cases ha : a.toNat < 0x1000
    · have hs := word_succ_toNat ha
      have hr : rest ≠ [] := by rintro rfl; simp at h; omega
      rw [writeBytes, writeByte_eq_ok b ha]
      simp only
      rw [ih _ (a + 1) hr (by omega), hs, if_neg (by omega : ¬a.toNat ≥ 0x1000)]
      by_cases h2 : a.toNat + 1 ≥ 0x1000
      · have : a + 1 = 0x1000 := BitVec.eq_of_toNat_eq (by rw [hs]; simp; omega)
        rw [if_pos h2, this]
      · rw [if_neg h2]
    · rw [writeBytes, writeByte_eq_error b (by omega), if_pos (by omega)]

/-- Every successful block write keeps the canonical form. -/
theorem writeBytes_wf {bytes : List Byte} {m m' : Memory} {a : Word} (h : m.wf) (hw : writeBytes m a bytes = .ok m') :
    m'.wf := by
  by_cases hr : bytes = [] ∨ a.toNat + bytes.length ≤ 0x1000
  · rw [writeBytes_eq_ok bytes m a hr] at hw
    rcases hr with rfl | hr
    · cases hw; exact h
    · cases hw; exact Memory.load_wf bytes h hr
  · rw [writeBytes_eq_error bytes m a (by tauto) (by omega)] at hw
    cases hw

/-- A block read answers as many bytes as it was asked for. -/
theorem readBytes_length {m : Memory} {a : Word} {n : Nat} {bs : List Byte} (h : readBytes m a n = .ok bs) :
    bs.length = n := by
  induction n generalizing a bs with
  | zero => cases h; rfl
  | succ k ih =>
    rw [readBytes] at h
    split at h
    · cases h
    · split at h
      · cases h
      · next hb => cases h; simp [ih hb]

/-- The fetch reads the big-endian word at an address of 0x0FFE or less (R52). -/
theorem readWord_eq_ok {m : Memory} {a : Word} (h : a.toNat + 1 < 0x1000) :
    readWord m a = .ok (wordOfBytes (m.byteAt a.toNat) (m.byteAt (a.toNat + 1))) := by
  have ha : a.toNat < 0x1000 := by omega
  rw [readWord, readByte_eq_ok ha, readByte_eq_ok (by rw [word_succ_toNat ha]; omega), word_succ_toNat ha]

/-- The fetch at 0x0FFF or above faults at its first byte out of range (R92, R205). -/
theorem readWord_eq_error {m : Memory} {a : Word} (h : 0x0FFF ≤ a.toNat) :
    readWord m a = .error (.memOutOfRange (if a.toNat ≥ 0x1000 then a else 0x1000)) := by
  by_cases ha : a.toNat < 0x1000
  · have : a = 0x0FFF := BitVec.eq_of_toNat_eq (by simp; omega)
    subst this
    rw [readWord, readByte_eq_ok ha, readByte_eq_error (by decide)]
    rfl
  · rw [readWord, readByte_eq_error (by omega), if_pos (by omega)]

/-- A fetch succeeds only at 0x0FFE or below (R92). -/
theorem readWord_ok_bound {m : Memory} {a w : Word} (h : readWord m a = .ok w) : a.toNat + 1 < 0x1000 := by
  by_contra hc
  rw [readWord_eq_error (by omega)] at h
  cases h

end Sys2Proof.Machine
end

