-- ==== Sys2Proof/Laws/State.lean ====
section
/-! SUPPORT. The small lemmas of State: one per field and update, each true by rfl, and what reading a register gives after
each update. -/

namespace Sys2Proof.Machine

variable (s : State)

/-! ## setReg -/

@[simp] theorem State.setReg_v (x : Reg) (b : Byte) : (s.setReg x b).v = s.v.set x.val b := rfl
@[simp] theorem State.setReg_i (x : Reg) (b : Byte) : (s.setReg x b).i = s.i := rfl
@[simp] theorem State.setReg_pc (x : Reg) (b : Byte) : (s.setReg x b).pc = s.pc := rfl
@[simp] theorem State.setReg_stack (x : Reg) (b : Byte) : (s.setReg x b).stack = s.stack := rfl
@[simp] theorem State.setReg_dt (x : Reg) (b : Byte) : (s.setReg x b).dt = s.dt := rfl
@[simp] theorem State.setReg_st (x : Reg) (b : Byte) : (s.setReg x b).st = s.st := rfl
@[simp] theorem State.setReg_mem (x : Reg) (b : Byte) : (s.setReg x b).mem = s.mem := rfl
@[simp] theorem State.setReg_disp (x : Reg) (b : Byte) : (s.setReg x b).disp = s.disp := rfl
@[simp] theorem State.setReg_history (x : Reg) (b : Byte) : (s.setReg x b).history = s.history := rfl
@[simp] theorem State.setReg_mode (x : Reg) (b : Byte) : (s.setReg x b).mode = s.mode := rfl
@[simp] theorem State.setReg_status (x : Reg) (b : Byte) : (s.setReg x b).status = s.status := rfl
@[simp] theorem State.setReg_keys (x : Reg) (b : Byte) : (s.setReg x b).keys = s.keys := rfl
@[simp] theorem State.setReg_host (x : Reg) (b : Byte) : (s.setReg x b).host = s.host := rfl
@[simp] theorem State.setReg_diags (x : Reg) (b : Byte) : (s.setReg x b).diags = s.diags := rfl
@[simp] theorem State.setReg_fresh (x : Reg) (b : Byte) : (s.setReg x b).fresh = s.fresh := rfl

/-! ## setLowRegs -/

@[simp] theorem State.setLowRegs_v (bs : List Byte) : (s.setLowRegs bs).v = setRegsFrom s.v 0 bs := rfl
@[simp] theorem State.setLowRegs_i (bs : List Byte) : (s.setLowRegs bs).i = s.i := rfl
@[simp] theorem State.setLowRegs_pc (bs : List Byte) : (s.setLowRegs bs).pc = s.pc := rfl
@[simp] theorem State.setLowRegs_stack (bs : List Byte) : (s.setLowRegs bs).stack = s.stack := rfl
@[simp] theorem State.setLowRegs_dt (bs : List Byte) : (s.setLowRegs bs).dt = s.dt := rfl
@[simp] theorem State.setLowRegs_st (bs : List Byte) : (s.setLowRegs bs).st = s.st := rfl
@[simp] theorem State.setLowRegs_mem (bs : List Byte) : (s.setLowRegs bs).mem = s.mem := rfl
@[simp] theorem State.setLowRegs_disp (bs : List Byte) : (s.setLowRegs bs).disp = s.disp := rfl
@[simp] theorem State.setLowRegs_history (bs : List Byte) : (s.setLowRegs bs).history = s.history := rfl
@[simp] theorem State.setLowRegs_mode (bs : List Byte) : (s.setLowRegs bs).mode = s.mode := rfl
@[simp] theorem State.setLowRegs_status (bs : List Byte) : (s.setLowRegs bs).status = s.status := rfl
@[simp] theorem State.setLowRegs_keys (bs : List Byte) : (s.setLowRegs bs).keys = s.keys := rfl
@[simp] theorem State.setLowRegs_host (bs : List Byte) : (s.setLowRegs bs).host = s.host := rfl
@[simp] theorem State.setLowRegs_diags (bs : List Byte) : (s.setLowRegs bs).diags = s.diags := rfl
@[simp] theorem State.setLowRegs_fresh (bs : List Byte) : (s.setLowRegs bs).fresh = s.fresh := rfl

/-! ## setI -/

@[simp] theorem State.setI_v (w : Word) : (s.setI w).v = s.v := rfl
@[simp] theorem State.setI_i (w : Word) : (s.setI w).i = w := rfl
@[simp] theorem State.setI_pc (w : Word) : (s.setI w).pc = s.pc := rfl
@[simp] theorem State.setI_stack (w : Word) : (s.setI w).stack = s.stack := rfl
@[simp] theorem State.setI_dt (w : Word) : (s.setI w).dt = s.dt := rfl
@[simp] theorem State.setI_st (w : Word) : (s.setI w).st = s.st := rfl
@[simp] theorem State.setI_mem (w : Word) : (s.setI w).mem = s.mem := rfl
@[simp] theorem State.setI_disp (w : Word) : (s.setI w).disp = s.disp := rfl
@[simp] theorem State.setI_history (w : Word) : (s.setI w).history = s.history := rfl
@[simp] theorem State.setI_mode (w : Word) : (s.setI w).mode = s.mode := rfl
@[simp] theorem State.setI_status (w : Word) : (s.setI w).status = s.status := rfl
@[simp] theorem State.setI_keys (w : Word) : (s.setI w).keys = s.keys := rfl
@[simp] theorem State.setI_host (w : Word) : (s.setI w).host = s.host := rfl
@[simp] theorem State.setI_diags (w : Word) : (s.setI w).diags = s.diags := rfl
@[simp] theorem State.setI_fresh (w : Word) : (s.setI w).fresh = s.fresh := rfl
@[simp] theorem State.setI_reg (w : Word) (r : Reg) : (s.setI w).reg r = s.reg r := rfl

/-! ## setPc -/

@[simp] theorem State.setPc_v (w : Word) : (s.setPc w).v = s.v := rfl
@[simp] theorem State.setPc_i (w : Word) : (s.setPc w).i = s.i := rfl
@[simp] theorem State.setPc_pc (w : Word) : (s.setPc w).pc = w := rfl
@[simp] theorem State.setPc_stack (w : Word) : (s.setPc w).stack = s.stack := rfl
@[simp] theorem State.setPc_dt (w : Word) : (s.setPc w).dt = s.dt := rfl
@[simp] theorem State.setPc_st (w : Word) : (s.setPc w).st = s.st := rfl
@[simp] theorem State.setPc_mem (w : Word) : (s.setPc w).mem = s.mem := rfl
@[simp] theorem State.setPc_disp (w : Word) : (s.setPc w).disp = s.disp := rfl
@[simp] theorem State.setPc_history (w : Word) : (s.setPc w).history = s.history := rfl
@[simp] theorem State.setPc_mode (w : Word) : (s.setPc w).mode = s.mode := rfl
@[simp] theorem State.setPc_status (w : Word) : (s.setPc w).status = s.status := rfl
@[simp] theorem State.setPc_keys (w : Word) : (s.setPc w).keys = s.keys := rfl
@[simp] theorem State.setPc_host (w : Word) : (s.setPc w).host = s.host := rfl
@[simp] theorem State.setPc_diags (w : Word) : (s.setPc w).diags = s.diags := rfl
@[simp] theorem State.setPc_fresh (w : Word) : (s.setPc w).fresh = s.fresh := rfl
@[simp] theorem State.setPc_reg (w : Word) (r : Reg) : (s.setPc w).reg r = s.reg r := rfl

/-! ## push -/

@[simp] theorem State.push_v (w : Word) : (s.push w).v = s.v := rfl
@[simp] theorem State.push_i (w : Word) : (s.push w).i = s.i := rfl
@[simp] theorem State.push_pc (w : Word) : (s.push w).pc = s.pc := rfl
@[simp] theorem State.push_stack (w : Word) : (s.push w).stack = w :: s.stack := rfl
@[simp] theorem State.push_dt (w : Word) : (s.push w).dt = s.dt := rfl
@[simp] theorem State.push_st (w : Word) : (s.push w).st = s.st := rfl
@[simp] theorem State.push_mem (w : Word) : (s.push w).mem = s.mem := rfl
@[simp] theorem State.push_disp (w : Word) : (s.push w).disp = s.disp := rfl
@[simp] theorem State.push_history (w : Word) : (s.push w).history = s.history := rfl
@[simp] theorem State.push_mode (w : Word) : (s.push w).mode = s.mode := rfl
@[simp] theorem State.push_status (w : Word) : (s.push w).status = s.status := rfl
@[simp] theorem State.push_keys (w : Word) : (s.push w).keys = s.keys := rfl
@[simp] theorem State.push_host (w : Word) : (s.push w).host = s.host := rfl
@[simp] theorem State.push_diags (w : Word) : (s.push w).diags = s.diags := rfl
@[simp] theorem State.push_fresh (w : Word) : (s.push w).fresh = s.fresh := rfl
@[simp] theorem State.push_reg (w : Word) (r : Reg) : (s.push w).reg r = s.reg r := rfl

/-! ## setStack -/

@[simp] theorem State.setStack_v (ws : List Word) : (s.setStack ws).v = s.v := rfl
@[simp] theorem State.setStack_i (ws : List Word) : (s.setStack ws).i = s.i := rfl
@[simp] theorem State.setStack_pc (ws : List Word) : (s.setStack ws).pc = s.pc := rfl
@[simp] theorem State.setStack_stack (ws : List Word) : (s.setStack ws).stack = ws := rfl
@[simp] theorem State.setStack_dt (ws : List Word) : (s.setStack ws).dt = s.dt := rfl
@[simp] theorem State.setStack_st (ws : List Word) : (s.setStack ws).st = s.st := rfl
@[simp] theorem State.setStack_mem (ws : List Word) : (s.setStack ws).mem = s.mem := rfl
@[simp] theorem State.setStack_disp (ws : List Word) : (s.setStack ws).disp = s.disp := rfl
@[simp] theorem State.setStack_history (ws : List Word) : (s.setStack ws).history = s.history := rfl
@[simp] theorem State.setStack_mode (ws : List Word) : (s.setStack ws).mode = s.mode := rfl
@[simp] theorem State.setStack_status (ws : List Word) : (s.setStack ws).status = s.status := rfl
@[simp] theorem State.setStack_keys (ws : List Word) : (s.setStack ws).keys = s.keys := rfl
@[simp] theorem State.setStack_host (ws : List Word) : (s.setStack ws).host = s.host := rfl
@[simp] theorem State.setStack_diags (ws : List Word) : (s.setStack ws).diags = s.diags := rfl
@[simp] theorem State.setStack_fresh (ws : List Word) : (s.setStack ws).fresh = s.fresh := rfl
@[simp] theorem State.setStack_reg (ws : List Word) (r : Reg) : (s.setStack ws).reg r = s.reg r := rfl

/-! ## setDt -/

@[simp] theorem State.setDt_v (b : Byte) : (s.setDt b).v = s.v := rfl
@[simp] theorem State.setDt_i (b : Byte) : (s.setDt b).i = s.i := rfl
@[simp] theorem State.setDt_pc (b : Byte) : (s.setDt b).pc = s.pc := rfl
@[simp] theorem State.setDt_stack (b : Byte) : (s.setDt b).stack = s.stack := rfl
@[simp] theorem State.setDt_dt (b : Byte) : (s.setDt b).dt = b := rfl
@[simp] theorem State.setDt_st (b : Byte) : (s.setDt b).st = s.st := rfl
@[simp] theorem State.setDt_mem (b : Byte) : (s.setDt b).mem = s.mem := rfl
@[simp] theorem State.setDt_disp (b : Byte) : (s.setDt b).disp = s.disp := rfl
@[simp] theorem State.setDt_history (b : Byte) : (s.setDt b).history = s.history := rfl
@[simp] theorem State.setDt_mode (b : Byte) : (s.setDt b).mode = s.mode := rfl
@[simp] theorem State.setDt_status (b : Byte) : (s.setDt b).status = s.status := rfl
@[simp] theorem State.setDt_keys (b : Byte) : (s.setDt b).keys = s.keys := rfl
@[simp] theorem State.setDt_host (b : Byte) : (s.setDt b).host = s.host := rfl
@[simp] theorem State.setDt_diags (b : Byte) : (s.setDt b).diags = s.diags := rfl
@[simp] theorem State.setDt_fresh (b : Byte) : (s.setDt b).fresh = s.fresh := rfl
@[simp] theorem State.setDt_reg (b : Byte) (r : Reg) : (s.setDt b).reg r = s.reg r := rfl

/-! ## setSt -/

@[simp] theorem State.setSt_v (b : Byte) : (s.setSt b).v = s.v := rfl
@[simp] theorem State.setSt_i (b : Byte) : (s.setSt b).i = s.i := rfl
@[simp] theorem State.setSt_pc (b : Byte) : (s.setSt b).pc = s.pc := rfl
@[simp] theorem State.setSt_stack (b : Byte) : (s.setSt b).stack = s.stack := rfl
@[simp] theorem State.setSt_dt (b : Byte) : (s.setSt b).dt = s.dt := rfl
@[simp] theorem State.setSt_st (b : Byte) : (s.setSt b).st = b := rfl
@[simp] theorem State.setSt_mem (b : Byte) : (s.setSt b).mem = s.mem := rfl
@[simp] theorem State.setSt_disp (b : Byte) : (s.setSt b).disp = s.disp := rfl
@[simp] theorem State.setSt_history (b : Byte) : (s.setSt b).history = s.history := rfl
@[simp] theorem State.setSt_mode (b : Byte) : (s.setSt b).mode = s.mode := rfl
@[simp] theorem State.setSt_status (b : Byte) : (s.setSt b).status = s.status := rfl
@[simp] theorem State.setSt_keys (b : Byte) : (s.setSt b).keys = s.keys := rfl
@[simp] theorem State.setSt_host (b : Byte) : (s.setSt b).host = s.host := rfl
@[simp] theorem State.setSt_diags (b : Byte) : (s.setSt b).diags = s.diags := rfl
@[simp] theorem State.setSt_fresh (b : Byte) : (s.setSt b).fresh = s.fresh := rfl
@[simp] theorem State.setSt_reg (b : Byte) (r : Reg) : (s.setSt b).reg r = s.reg r := rfl

/-! ## setMem -/

@[simp] theorem State.setMem_v (m : Memory) : (s.setMem m).v = s.v := rfl
@[simp] theorem State.setMem_i (m : Memory) : (s.setMem m).i = s.i := rfl
@[simp] theorem State.setMem_pc (m : Memory) : (s.setMem m).pc = s.pc := rfl
@[simp] theorem State.setMem_stack (m : Memory) : (s.setMem m).stack = s.stack := rfl
@[simp] theorem State.setMem_dt (m : Memory) : (s.setMem m).dt = s.dt := rfl
@[simp] theorem State.setMem_st (m : Memory) : (s.setMem m).st = s.st := rfl
@[simp] theorem State.setMem_mem (m : Memory) : (s.setMem m).mem = m := rfl
@[simp] theorem State.setMem_disp (m : Memory) : (s.setMem m).disp = s.disp := rfl
@[simp] theorem State.setMem_history (m : Memory) : (s.setMem m).history = s.history := rfl
@[simp] theorem State.setMem_mode (m : Memory) : (s.setMem m).mode = s.mode := rfl
@[simp] theorem State.setMem_status (m : Memory) : (s.setMem m).status = s.status := rfl
@[simp] theorem State.setMem_keys (m : Memory) : (s.setMem m).keys = s.keys := rfl
@[simp] theorem State.setMem_host (m : Memory) : (s.setMem m).host = s.host := rfl
@[simp] theorem State.setMem_diags (m : Memory) : (s.setMem m).diags = s.diags := rfl
@[simp] theorem State.setMem_fresh (m : Memory) : (s.setMem m).fresh = s.fresh := rfl
@[simp] theorem State.setMem_reg (m : Memory) (r : Reg) : (s.setMem m).reg r = s.reg r := rfl

/-! ## setDisp -/

@[simp] theorem State.setDisp_v (d : Display) : (s.setDisp d).v = s.v := rfl
@[simp] theorem State.setDisp_i (d : Display) : (s.setDisp d).i = s.i := rfl
@[simp] theorem State.setDisp_pc (d : Display) : (s.setDisp d).pc = s.pc := rfl
@[simp] theorem State.setDisp_stack (d : Display) : (s.setDisp d).stack = s.stack := rfl
@[simp] theorem State.setDisp_dt (d : Display) : (s.setDisp d).dt = s.dt := rfl
@[simp] theorem State.setDisp_st (d : Display) : (s.setDisp d).st = s.st := rfl
@[simp] theorem State.setDisp_mem (d : Display) : (s.setDisp d).mem = s.mem := rfl
@[simp] theorem State.setDisp_disp (d : Display) : (s.setDisp d).disp = d := rfl
@[simp] theorem State.setDisp_history (d : Display) : (s.setDisp d).history = s.history := rfl
@[simp] theorem State.setDisp_mode (d : Display) : (s.setDisp d).mode = s.mode := rfl
@[simp] theorem State.setDisp_status (d : Display) : (s.setDisp d).status = s.status := rfl
@[simp] theorem State.setDisp_keys (d : Display) : (s.setDisp d).keys = s.keys := rfl
@[simp] theorem State.setDisp_host (d : Display) : (s.setDisp d).host = s.host := rfl
@[simp] theorem State.setDisp_diags (d : Display) : (s.setDisp d).diags = s.diags := rfl
@[simp] theorem State.setDisp_fresh (d : Display) : (s.setDisp d).fresh = s.fresh := rfl
@[simp] theorem State.setDisp_reg (d : Display) (r : Reg) : (s.setDisp d).reg r = s.reg r := rfl

/-! ## setKeys -/

@[simp] theorem State.setKeys_v (ks : Keys) : (s.setKeys ks).v = s.v := rfl
@[simp] theorem State.setKeys_i (ks : Keys) : (s.setKeys ks).i = s.i := rfl
@[simp] theorem State.setKeys_pc (ks : Keys) : (s.setKeys ks).pc = s.pc := rfl
@[simp] theorem State.setKeys_stack (ks : Keys) : (s.setKeys ks).stack = s.stack := rfl
@[simp] theorem State.setKeys_dt (ks : Keys) : (s.setKeys ks).dt = s.dt := rfl
@[simp] theorem State.setKeys_st (ks : Keys) : (s.setKeys ks).st = s.st := rfl
@[simp] theorem State.setKeys_mem (ks : Keys) : (s.setKeys ks).mem = s.mem := rfl
@[simp] theorem State.setKeys_disp (ks : Keys) : (s.setKeys ks).disp = s.disp := rfl
@[simp] theorem State.setKeys_history (ks : Keys) : (s.setKeys ks).history = s.history := rfl
@[simp] theorem State.setKeys_mode (ks : Keys) : (s.setKeys ks).mode = s.mode := rfl
@[simp] theorem State.setKeys_status (ks : Keys) : (s.setKeys ks).status = s.status := rfl
@[simp] theorem State.setKeys_keys (ks : Keys) : (s.setKeys ks).keys = ks := rfl
@[simp] theorem State.setKeys_host (ks : Keys) : (s.setKeys ks).host = s.host := rfl
@[simp] theorem State.setKeys_diags (ks : Keys) : (s.setKeys ks).diags = s.diags := rfl
@[simp] theorem State.setKeys_fresh (ks : Keys) : (s.setKeys ks).fresh = s.fresh := rfl
@[simp] theorem State.setKeys_reg (ks : Keys) (r : Reg) : (s.setKeys ks).reg r = s.reg r := rfl

/-! ## takeFresh -/

@[simp] theorem State.takeFresh_v : (s.takeFresh).v = s.v := rfl
@[simp] theorem State.takeFresh_i : (s.takeFresh).i = s.i := rfl
@[simp] theorem State.takeFresh_pc : (s.takeFresh).pc = s.pc := rfl
@[simp] theorem State.takeFresh_stack : (s.takeFresh).stack = s.stack := rfl
@[simp] theorem State.takeFresh_dt : (s.takeFresh).dt = s.dt := rfl
@[simp] theorem State.takeFresh_st : (s.takeFresh).st = s.st := rfl
@[simp] theorem State.takeFresh_mem : (s.takeFresh).mem = s.mem := rfl
@[simp] theorem State.takeFresh_disp : (s.takeFresh).disp = s.disp := rfl
@[simp] theorem State.takeFresh_history : (s.takeFresh).history = s.history := rfl
@[simp] theorem State.takeFresh_mode : (s.takeFresh).mode = s.mode := rfl
@[simp] theorem State.takeFresh_status : (s.takeFresh).status = s.status := rfl
@[simp] theorem State.takeFresh_keys : (s.takeFresh).keys = s.keys := rfl
@[simp] theorem State.takeFresh_host : (s.takeFresh).host = s.host := rfl
@[simp] theorem State.takeFresh_diags : (s.takeFresh).diags = s.diags := rfl
@[simp] theorem State.takeFresh_fresh : (s.takeFresh).fresh = s.fresh + 1 := rfl
@[simp] theorem State.takeFresh_reg (r : Reg) : (s.takeFresh).reg r = s.reg r := rfl

/-! ## emit -/

@[simp] theorem State.emit_v (d : Diagnostic) : (s.emit d).v = s.v := rfl
@[simp] theorem State.emit_i (d : Diagnostic) : (s.emit d).i = s.i := rfl
@[simp] theorem State.emit_pc (d : Diagnostic) : (s.emit d).pc = s.pc := rfl
@[simp] theorem State.emit_stack (d : Diagnostic) : (s.emit d).stack = s.stack := rfl
@[simp] theorem State.emit_dt (d : Diagnostic) : (s.emit d).dt = s.dt := rfl
@[simp] theorem State.emit_st (d : Diagnostic) : (s.emit d).st = s.st := rfl
@[simp] theorem State.emit_mem (d : Diagnostic) : (s.emit d).mem = s.mem := rfl
@[simp] theorem State.emit_disp (d : Diagnostic) : (s.emit d).disp = s.disp := rfl
@[simp] theorem State.emit_history (d : Diagnostic) : (s.emit d).history = s.history := rfl
@[simp] theorem State.emit_mode (d : Diagnostic) : (s.emit d).mode = s.mode := rfl
@[simp] theorem State.emit_status (d : Diagnostic) : (s.emit d).status = s.status := rfl
@[simp] theorem State.emit_keys (d : Diagnostic) : (s.emit d).keys = s.keys := rfl
@[simp] theorem State.emit_host (d : Diagnostic) : (s.emit d).host = s.host := rfl
@[simp] theorem State.emit_diags (d : Diagnostic) : (s.emit d).diags = s.diags ++ [d] := rfl
@[simp] theorem State.emit_fresh (d : Diagnostic) : (s.emit d).fresh = s.fresh := rfl
@[simp] theorem State.emit_reg (d : Diagnostic) (r : Reg) : (s.emit d).reg r = s.reg r := rfl

/-! ## Composite updates -/

@[simp] theorem State.setFlag_eq (c : Bool) : s.setFlag c = s.setReg vf (flagByte c) := rfl

@[simp] theorem State.setRegThenFlag_eq (x : Reg) (b : Byte) (c : Bool) :
    s.setRegThenFlag x b c = (s.setReg x b).setReg vf (flagByte c) := rfl

@[simp] theorem State.advance_eq : s.advance = s.setPc (s.pc + 2) := rfl

/-! ## Registers -/

/-- A register reads as what was last written to it, and a write leaves every other register alone (10_state.md R20). -/
theorem State.reg_setReg (x r : Reg) (b : Byte) : (s.setReg x b).reg r = if r = x then b else s.reg r := by
  simp only [State.reg, State.setReg, Vector.getElem_set, Fin.ext_iff]
  split <;> split <;> first | rfl | omega

@[simp] theorem State.reg_setReg_self (x : Reg) (b : Byte) : (s.setReg x b).reg x = b := by
  simp [State.reg_setReg]

theorem State.reg_setReg_of_ne {x r : Reg} (b : Byte) (h : r ≠ x) : (s.setReg x b).reg r = s.reg r := by
  simp [State.reg_setReg, h]

@[simp] theorem State.reg_withPc (w : Word) (r : Reg) : ({ s with pc := w } : State).reg r = s.reg r := rfl

/-- Writing a block of registers from index `k` writes those the block reaches and no other. -/
theorem setRegsFrom_getElem (bs : List Byte) (v : Vector Byte 16) (k j : Nat) (hj : j < 16) :
    (setRegsFrom v k bs)[j] = if k ≤ j ∧ j < k + bs.length then bs.getD (j - k) 0 else v[j] := by
  induction bs generalizing v k with
  | nil => simp [setRegsFrom]
  | cons b rest ih =>
    rw [setRegsFrom, ih]
    rcases Nat.lt_trichotomy j k with h | h | h
    · have h1 : ¬(k + 1 ≤ j ∧ j < k + 1 + rest.length) := by omega
      have h2 : ¬(k ≤ j ∧ j < k + (b :: rest).length) := by omega
      rw [if_neg h1, if_neg h2, Vector.getElem_setIfInBounds_ne (by assumption) (by omega)]
    · subst h
      simp
    · have h3 : j - k = (j - (k + 1)) + 1 := by omega
      simp only [List.length_cons]
      by_cases h4 : j < k + 1 + rest.length
      · rw [if_pos ⟨by omega, h4⟩, if_pos ⟨by omega, by omega⟩, h3]; rfl
      · rw [if_neg (by omega), if_neg (by omega), Vector.getElem_setIfInBounds_ne (by assumption) (by omega)]

/-- FX65's write: `V[k]` takes byte `k` of the list, registers past its end keep their value (44_memory_transfer.md R151). -/
theorem State.reg_setLowRegs (bs : List Byte) (r : Reg) :
    (s.setLowRegs bs).reg r = if r.val < bs.length then bs.getD r.val 0 else s.reg r := by
  simp [State.reg, State.setLowRegs, setRegsFrom_getElem]

/-- The registers FX55 stores are `V[0]` to `V[X]` in order (R150). -/
theorem State.lowRegs_length (x : Reg) : (s.lowRegs x).length = x.val + 1 := by
  simp [State.lowRegs]

theorem State.lowRegs_getElem (x : Reg) (k : Nat) (h : k < (s.lowRegs x).length) (hk : k < 16) :
    (s.lowRegs x)[k] = s.reg ⟨k, hk⟩ := by
  simp [State.lowRegs, State.reg]

/-! ## The skip (41_control_flow.md R108) -/

theorem State.skipIf_eq (c : Bool) : s.skipIf c = s.setPc (if c then s.pc + 2 else s.pc) := by
  cases c <;> rfl

end Sys2Proof.Machine
end

