-- ==== Sys2Proof/Laws/Ops.lean ====
section
/-! SUPPORT. What each shared operation of Ops, Operands and Flags can answer, said once. -/

namespace Sys2Proof.Machine

/-! ## Completing an operation that may fault -/

@[simp] theorem complete_ok {α : Type} (a : α) (k : α → State) : complete (.ok a) k = .next (k a) := rfl

@[simp] theorem complete_error {α : Type} (f : Fault) (k : α → State) :
    complete (.error f : Except Fault α) k = .fault f := rfl

/-- An operation completes only where its access did, and its state is built from what the access answered. -/
theorem complete_eq_next {α : Type} {r : Except Fault α} {k : α → State} {t : State} (h : complete r k = .next t) :
    ∃ a, r = .ok a ∧ t = k a := by
  cases r with
  | error f => cases h
  | ok a => cases h; exact ⟨a, rfl, rfl⟩

/-- An operation faults only where its access did. -/
theorem complete_eq_fault {α : Type} {r : Except Fault α} {k : α → State} {f : Fault} (h : complete r k = .fault f) :
    r = .error f := by
  cases r with
  | error g => cases h; rfl
  | ok a => cases h

/-- No operation over memory or keys refuses. -/
theorem complete_ne_refused {α : Type} (r : Except Fault α) (k : α → State) (x : Refusal) :
    complete r k ≠ .refused x := by
  cases r <;> simp [complete, raise]

/-! ## Keys (48_keyboard.md) -/

theorem keyAt_eq_ok (ks : Keys) {k : Byte} (h : k.toNat < 16) : keyAt ks k = .ok ks[k.toNat] := dif_pos h

theorem keyAt_eq_error (ks : Keys) {k : Byte} (h : 15 < k.toNat) : keyAt ks k = .error (.keyIndexOutOfRange k) :=
  dif_neg (by omega)

/-- A fault of the key lookup is the key index fault, on an index above 15 (R188). -/
theorem keyAt_error {ks : Keys} {k : Byte} {f : Fault} (h : keyAt ks k = .error f) :
    f = .keyIndexOutOfRange k ∧ 15 < k.toNat := by
  unfold keyAt at h
  split at h
  · cases h
  · cases h; exact ⟨rfl, by omega⟩

/-- No key is found exactly when none is pressed (R187). -/
theorem lowestPressed_eq_none {ks : Keys} : lowestPressed ks = none ↔ ∀ k : Reg, ks[k.val] = false := by
  simp [lowestPressed]

/-- The key found is pressed and no smaller one is (R187, R189). -/
theorem lowestPressed_eq_some {ks : Keys} {k : Reg} :
    lowestPressed ks = some k ↔ ks[k.val] = true ∧ ∀ j : Reg, j < k → ks[j.val] = false := by
  unfold lowestPressed
  constructor
  · intro h
    refine ⟨by simpa using List.find?_some h, fun j hj => ?_⟩
    obtain ⟨-, as, bs, heq, has⟩ := List.find?_eq_some_iff_append.1 h
    have hmem : j ∈ as ++ k :: bs := heq ▸ List.mem_finRange j
    have hsorted : (as ++ k :: bs).Pairwise (· < ·) := heq ▸ List.pairwise_lt_finRange 16
    rcases List.mem_append.1 hmem with hj' | hj'
    · simpa using has j hj'
    · exfalso
      have hp := (List.pairwise_append.1 hsorted).2.1
      rcases List.mem_cons.1 hj' with rfl | hj''
      · exact lt_irrefl _ hj
      · exact lt_asymm hj ((List.pairwise_cons.1 hp).1 j hj'')
  · rintro ⟨h1, h2⟩
    cases hf : (List.finRange 16).find? (fun k => ks[k.val]) with
    | none => simp at hf; exact absurd h1 (by simp [hf k])
    | some j =>
      have hj : ks[j.val] = true := by simpa using List.find?_some hf
      obtain ⟨-, as, bs, heq, has⟩ := List.find?_eq_some_iff_append.1 hf
      have hmem : k ∈ as ++ j :: bs := heq ▸ List.mem_finRange k
      have hsorted : (as ++ j :: bs).Pairwise (· < ·) := heq ▸ List.pairwise_lt_finRange 16
      rcases List.mem_append.1 hmem with hk | hk
      · exact absurd h1 (by simpa using has k hk)
      · rcases List.mem_cons.1 hk with rfl | hk
        · rfl
        · have hlt := (List.pairwise_cons.1 (List.pairwise_append.1 hsorted).2.1).1 k hk
          exact absurd hj (by simp [h2 j hlt])

/-! ## History (10_state.md R30, 40_tick_cycle.md R95) -/

/-- The ring never grows past its capacity. -/
theorem appendCapped_length {h : List Instr} (i : Instr) (hh : h.length ≤ 100) : (appendCapped h i).length ≤ 100 := by
  unfold appendCapped
  split <;> simp [Config.historyCap] at * <;> omega

/-- The newest entry is the one appended. -/
theorem appendCapped_getLast? (h : List Instr) (i : Instr) : (appendCapped h i).getLast? = some i := by
  unfold appendCapped
  split <;> simp

/-- The history entry changes nothing but the history. -/
theorem State.record_eq (s : State) (i : Instr) : ∃ h, s.record i = { s with history := h } ∧
    (h = s.history ∨ h = appendCapped s.history i) := by
  cases i
  case unrecognized w => exact ⟨s.history, rfl, Or.inl rfl⟩
  all_goals exact ⟨_, rfl, Or.inr rfl⟩

/-! ## Flags (10_state.md R21) -/

@[simp] theorem flagByte_true : flagByte true = 1 := rfl

@[simp] theorem flagByte_false : flagByte false = 0 := rfl

/-- The carry of an addition is the ninth bit of the exact sum (42_register_alu.md R126). -/
theorem addCarries_iff (a b : Byte) : addCarries a b = true ↔ 255 < a.toNat + b.toNat := by simp [addCarries]

/-- No borrow means the exact difference is not negative (R127). -/
theorem subDoesNotBorrow_iff (a b : Byte) : subDoesNotBorrow a b = true ↔ b.toNat ≤ a.toNat := by
  simp [subDoesNotBorrow]

/-! ## Operands -/

/-- `zext_16(NNN)` keeps the value (30_encoding.md R73). -/
theorem addrOperand_toNat (nnn : Addr12) : (addrOperand nnn).toNat = nnn.toNat := by
  simp [addrOperand]; omega

/-- The glyph address is the formula on the whole byte, with no overflow (43_index.md R142). -/
theorem State.glyphAddress_toNat (s : State) (x : Reg) : (s.glyphAddress x).toNat = 0x50 + 5 * (s.reg x).toNat := by
  have := (s.reg x).isLt
  simp [State.glyphAddress, State.wideReg, Config.fontBase, Config.glyphLen]
  omega

/-- A draw for an immediate other than 0 lies below it (46_random.md R170). -/
theorem State.rand_lt (s : State) {nn : Byte} (h : nn ≠ 0) : (s.rand nn).toNat < nn.toNat := by
  have h0 : nn.toNat ≠ 0 := fun h' => h (BitVec.eq_of_toNat_eq (by simpa using h'))
  simp only [State.rand, BitVec.toNat_umod]
  exact Nat.mod_lt _ (by omega)

/-- The visible rows of a sprite stay on the screen (45_display.md R163). -/
theorem visibleRows_le (s : State) (y : Reg) (n : Nibble) : s.spriteY y + visibleRows (s.spriteY y) n ≤ 32 := by
  have : s.spriteY y < 32 := Nat.mod_lt _ (by decide)
  unfold visibleRows
  omega

end Sys2Proof.Machine
end

