-- ==== Sys2Proof/Laws/PerInstr.lean ====
section
/-! SUPPORT. Per instruction: its encoded word selects its own row of the opcode map (30_encoding.md R83). -/

namespace Sys2Proof.Laws

/-- The top nibble under the mask 0xF000. -/
theorem wordNNN_mask_top (t : BitVec 4) (nnn : Addr12) : wordNNN t nnn &&& 0xF000 = wordNNN t 0 := by
  have h : (0xF000 : Word) = wordNNN 0xF 0 := by decide
  rw [h]
  exact (BitVec.and_append (x₁ := t) (x₂ := 0xF#4) (y₁ := nnn) (y₂ := 0#12)).trans
    (by rw [show t &&& 0xF#4 = t by revert t; decide, BitVec.and_zero]; rfl)

namespace EncodesItsRow

/-- The word of the instruction selects the row of the opcode map the instruction stands for (R83). -/
def Statement (i : Instr) : Prop := ∃ r ∈ opcodeMap, r.row = i.row ∧ r.selects (encode i) = true

/-- From the row itself: it is in the map and selects the word. -/
theorem of_row {i : Instr} (r : OpcodeRow) (hr : r ∈ opcodeMap) (hi : r.row = i.row)
    (hw : encode i &&& r.mask = r.pattern) : Statement i :=
  ⟨r, hr, hi, by simp [OpcodeRow.selects, hw]⟩

theorem jp (nnn : Addr12) : Statement (.jp nnn) :=
  of_row ⟨1, 1, 0xF000, 0x1000⟩ (by decide) rfl ((wordNNN_mask_top 1 nnn).trans (by decide))

theorem call (nnn : Addr12) : Statement (.call nnn) :=
  of_row ⟨2, 1, 0xF000, 0x2000⟩ (by decide) rfl ((wordNNN_mask_top 2 nnn).trans (by decide))

theorem ret : Statement (.ret) :=
  of_row ⟨3, 1, 0xFFFF, 0x00EE⟩ (by decide) rfl rfl

theorem seImm (x : Reg) (nn : Byte) : Statement (.seImm x nn) :=
  of_row ⟨4, 1, 0xF000, 0x3000⟩ (by decide) rfl (by simp only [encode, wordXNN_eq, wordNNN_mask_top]; decide)

theorem sneImm (x : Reg) (nn : Byte) : Statement (.sneImm x nn) :=
  of_row ⟨5, 1, 0xF000, 0x4000⟩ (by decide) rfl (by simp only [encode, wordXNN_eq, wordNNN_mask_top]; decide)

theorem seReg (x y : Reg) : Statement (.seReg x y) :=
  of_row ⟨6, 1, 0xF000, 0x5000⟩ (by decide) rfl (by simp only [encode, wordXYN_eq, wordXNN_eq, wordNNN_mask_top]; decide)

theorem sneReg (x y : Reg) : Statement (.sneReg x y) :=
  of_row ⟨7, 1, 0xF000, 0x9000⟩ (by decide) rfl (by simp only [encode, wordXYN_eq, wordXNN_eq, wordNNN_mask_top]; decide)

theorem sys (nnn : Addr12) : Statement (.sys nnn) :=
  of_row ⟨8, 2, 0xF000, 0x0000⟩ (by decide) rfl ((wordNNN_mask_top 0 nnn).trans (by decide))

theorem ldImm (x : Reg) (nn : Byte) : Statement (.ldImm x nn) :=
  of_row ⟨9, 1, 0xF000, 0x6000⟩ (by decide) rfl (by simp only [encode, wordXNN_eq, wordNNN_mask_top]; decide)

theorem addImm (x : Reg) (nn : Byte) : Statement (.addImm x nn) :=
  of_row ⟨10, 1, 0xF000, 0x7000⟩ (by decide) rfl (by simp only [encode, wordXNN_eq, wordNNN_mask_top]; decide)

theorem ldReg (x y : Reg) : Statement (.ldReg x y) :=
  of_row ⟨11, 1, 0xF00F, 0x8000⟩ (by decide) rfl (by revert x y; decide)

theorem orReg (x y : Reg) : Statement (.orReg x y) :=
  of_row ⟨12, 1, 0xF00F, 0x8001⟩ (by decide) rfl (by revert x y; decide)

theorem andReg (x y : Reg) : Statement (.andReg x y) :=
  of_row ⟨13, 1, 0xF00F, 0x8002⟩ (by decide) rfl (by revert x y; decide)

theorem xorReg (x y : Reg) : Statement (.xorReg x y) :=
  of_row ⟨14, 1, 0xF00F, 0x8003⟩ (by decide) rfl (by revert x y; decide)

theorem addReg (x y : Reg) : Statement (.addReg x y) :=
  of_row ⟨15, 1, 0xF00F, 0x8004⟩ (by decide) rfl (by revert x y; decide)

theorem subReg (x y : Reg) : Statement (.subReg x y) :=
  of_row ⟨16, 1, 0xF00F, 0x8005⟩ (by decide) rfl (by revert x y; decide)

theorem shr (x y : Reg) : Statement (.shr x y) :=
  of_row ⟨17, 1, 0xF00F, 0x8006⟩ (by decide) rfl (by revert x y; decide)

theorem subnReg (x y : Reg) : Statement (.subnReg x y) :=
  of_row ⟨18, 1, 0xF00F, 0x8007⟩ (by decide) rfl (by revert x y; decide)

theorem shl (x y : Reg) : Statement (.shl x y) :=
  of_row ⟨19, 1, 0xF00F, 0x800E⟩ (by decide) rfl (by revert x y; decide)

theorem ldI (nnn : Addr12) : Statement (.ldI nnn) :=
  of_row ⟨20, 1, 0xF000, 0xA000⟩ (by decide) rfl ((wordNNN_mask_top 10 nnn).trans (by decide))

theorem addI (x : Reg) : Statement (.addI x) :=
  of_row ⟨21, 1, 0xF0FF, 0xF01E⟩ (by decide) rfl (by revert x; decide)

theorem ldF (x : Reg) : Statement (.ldF x) :=
  of_row ⟨22, 1, 0xF0FF, 0xF029⟩ (by decide) rfl (by revert x; decide)

theorem storeRegs (x : Reg) : Statement (.storeRegs x) :=
  of_row ⟨23, 1, 0xF0FF, 0xF055⟩ (by decide) rfl (by revert x; decide)

theorem loadRegs (x : Reg) : Statement (.loadRegs x) :=
  of_row ⟨24, 1, 0xF0FF, 0xF065⟩ (by decide) rfl (by revert x; decide)

theorem bcd (x : Reg) : Statement (.bcd x) :=
  of_row ⟨25, 1, 0xF0FF, 0xF033⟩ (by decide) rfl (by revert x; decide)

theorem drw (x y : Reg) (n : Nibble) : Statement (.drw x y n) :=
  of_row ⟨26, 1, 0xF000, 0xD000⟩ (by decide) rfl (by simp only [encode, wordXYN_eq, wordXNN_eq, wordNNN_mask_top]; decide)

theorem cls : Statement (.cls) :=
  of_row ⟨27, 1, 0xFFFF, 0x00E0⟩ (by decide) rfl rfl

theorem rnd (x : Reg) (nn : Byte) : Statement (.rnd x nn) :=
  of_row ⟨28, 1, 0xF000, 0xC000⟩ (by decide) rfl (by simp only [encode, wordXNN_eq, wordNNN_mask_top]; decide)

theorem ldVxDt (x : Reg) : Statement (.ldVxDt x) :=
  of_row ⟨29, 1, 0xF0FF, 0xF007⟩ (by decide) rfl (by revert x; decide)

theorem ldDtVx (x : Reg) : Statement (.ldDtVx x) :=
  of_row ⟨30, 1, 0xF0FF, 0xF015⟩ (by decide) rfl (by revert x; decide)

theorem ldStVx (x : Reg) : Statement (.ldStVx x) :=
  of_row ⟨31, 1, 0xF0FF, 0xF018⟩ (by decide) rfl (by revert x; decide)

theorem skp (x : Reg) : Statement (.skp x) :=
  of_row ⟨32, 1, 0xF0FF, 0xE09E⟩ (by decide) rfl (by revert x; decide)

theorem sknp (x : Reg) : Statement (.sknp x) :=
  of_row ⟨33, 1, 0xF0FF, 0xE0A1⟩ (by decide) rfl (by revert x; decide)

theorem waitKey (x : Reg) : Statement (.waitKey x) :=
  of_row ⟨34, 1, 0xF0FF, 0xF00A⟩ (by decide) rfl (by revert x; decide)

theorem unrecognized (w : Word) : Statement (.unrecognized w) :=
  of_row ⟨35, 9, 0x0000, 0x0000⟩ (by decide) rfl (BitVec.and_zero)

end EncodesItsRow

end Sys2Proof.Laws
end

