-- ==== Sys2Proof/Laws/Step.lean ====
section
/-! SUPPORT. What the transactions and a step can do, said once (40_tick_cycle.md R90, R91). -/

namespace Sys2Proof.Machine

/-- A tick of a running core whose fetch answers `w` executes the word's instruction after the advance and records it. -/
theorem tick_of_fetch {s : State} {ks : Keys} {w : Word} (hs : s.status = .running) (hf : readWord s.mem s.pc = .ok w) :
    tick ks s = recordAfter (decode w) (exec (decode w) (s.setKeys ks).advance) := by
  have : fetch (s.setKeys ks) = .ok w := hf
  simp only [tick, hs, runCycle, this]

/-- A tick of a running core whose fetch faults ends in that fault. -/
theorem tick_of_fetch_error {s : State} {ks : Keys} {f : Fault} (hs : s.status = .running)
    (hf : readWord s.mem s.pc = .error f) : tick ks s = .fault f := by
  have : fetch (s.setKeys ks) = .error f := hf
  simp only [tick, hs, runCycle, this, raise]

/-- A faulted core does nothing (10_state.md R34). -/
theorem tick_of_faulted {s : State} {ks : Keys} {f : Fault} (hs : s.status = .faulted f) : tick ks s = .next s := by
  simp only [tick, hs]

/-- Everything a completed tick can be: the idle tick of a faulted core, or one executed instruction with its record. -/
theorem tick_cases {s t : State} {ks : Keys} (h : tick ks s = .next t) :
    (∃ f, s.status = .faulted f ∧ t = s) ∨
    (s.status = .running ∧ ∃ w u, readWord s.mem s.pc = .ok w ∧
      exec (decode w) (s.setKeys ks).advance = .next u ∧ t = u.record (decode w)) := by
  cases hs : s.status with
  | faulted f => rw [tick_of_faulted hs] at h; cases h; exact Or.inl ⟨f, rfl, rfl⟩
  | running =>
    refine Or.inr ⟨rfl, ?_⟩
    cases hf : readWord s.mem s.pc with
    | error f => rw [tick_of_fetch_error hs hf] at h; cases h
    | ok w =>
      rw [tick_of_fetch hs hf] at h
      cases he : exec (decode w) (s.setKeys ks).advance with
      | next u => rw [he] at h; cases h; exact ⟨w, u, rfl, he, rfl⟩
      | fault f => rw [he] at h; cases h
      | refused r => rw [he] at h; cases h

/-- `DecTimers` of a running core (47_timers.md R178). -/
theorem decTimers_of_running {s : State} (hs : s.status = .running) :
    decTimers s = (s.setDt (countDown s.dt)).setSt (countDown s.st) := by
  simp only [decTimers, hs]

theorem decTimers_of_faulted {s : State} {f : Fault} (hs : s.status = .faulted f) : decTimers s = s := by
  simp only [decTimers, hs]

/-- One decrement stops at 0 (R178). -/
theorem countDown_toNat (b : Byte) : (countDown b).toNat = b.toNat - 1 := by
  unfold countDown
  split
  · have := b.isLt
    rw [BitVec.toNat_sub]
    simp
    omega
  · omega

/-- The next transaction leaves the core as it is: only the host's list or the count of free values moves. -/
theorem nextOp_cases (s : State) :
    (∃ op rest, s.host = op :: rest ∧ nextOp s = (op, { s with host := rest })) ∨
    (s.host = [] ∧ nextOp s = (freeOp s.fresh, s.takeFresh)) := by
  unfold nextOp
  cases hh : s.host with
  | nil => exact Or.inr ⟨rfl, rfl⟩
  | cons op rest => exact Or.inl ⟨op, rest, rfl, rfl⟩

/-- A step with a listed transaction performs it. -/
theorem step_of_host {s : State} {op : HostOp} {rest : List HostOp} (h : s.host = op :: rest) :
    step s = perform op { s with host := rest } := by
  simp only [step, nextOp, h]

/-- A free choice is `DecTimers` or a `Tick` (40_tick_cycle.md R96). -/
theorem freeOp_cases (n : Nat) : freeOp n = .decTimers ∨ freeOp n = .tick (Config.freeKeys n) := by
  unfold freeOp
  split
  · exact Or.inl rfl
  · exact Or.inr rfl

/-- A step past the list performs a free choice (log 3). -/
theorem step_of_no_host {s : State} (h : s.host = []) : step s = perform (freeOp s.fresh) s.takeFresh := by
  simp only [step, nextOp, h]

/-- Everything a step can be: the listed transaction or, past the list, the timers' countdown or a tick (R96). -/
theorem step_cases (s : State) :
    (∃ op rest, s.host = op :: rest ∧ step s = perform op { s with host := rest }) ∨
    (s.host = [] ∧ (step s = .next (decTimers s.takeFresh) ∨ step s = tick (Config.freeKeys s.fresh) s.takeFresh)) := by
  cases h : s.host with
  | cons op rest => exact Or.inl ⟨op, rest, rfl, step_of_host h⟩
  | nil =>
    refine Or.inr ⟨rfl, ?_⟩
    rw [step_of_no_host h]
    rcases freeOp_cases s.fresh with hf | hf <;> rw [hf]
    · exact Or.inl rfl
    · exact Or.inr rfl

/-- A completed `Reset` had a program that fits, and its state is the reset state (70_reset_and_hazards.md R230). -/
theorem performReset_eq_next {mode : Mode} {font : Font} {program : List Byte} {s t : State}
    (h : performReset mode font program s = .next t) :
    program.length ≤ 3584 ∧ t = resetState mode font program s := by
  unfold performReset at h
  split at h
  · cases h; exact ⟨by assumption, rfl⟩
  · cases h

end Sys2Proof.Machine
end

