-- ==== Sys2Proof/Tests/Slice0.lean ====
section
/-! SUPPORT. The model's own tests: the checks of WellFormed, one word per constructor written out from the patterns of
30_encoding.md R83, single ticks taken from 95_test_vectors.md (the vector's id stands beside each), and for every statement
with hypotheses a state that meets them. -/

namespace Sys2Proof.Tests

open Sys2Proof Sys2Proof.Machine

/-! ## WellFormed: an ill-formed term for each check -/

theorem test_sys_0E0_ill_formed : (Instr.sys 0x0E0).wellFormed = false := by decide
theorem test_sys_0EE_ill_formed : (Instr.sys 0x0EE).wellFormed = false := by decide
theorem test_unrecognized_of_known_word_ill_formed : (Instr.unrecognized 0x6A42).wellFormed = false := by decide
theorem test_unrecognized_group8_well_formed : (Instr.unrecognized 0x8AB8).wellFormed = true := by decide

/-! ## Decoding: the word of each row, bit 15 first (R83) -/

theorem test_decode_jp : decode 0b0001_0010_0011_0100 = .jp 0x234 := by decide
theorem test_decode_call : decode 0b0010_1010_1011_1100 = .call 0xABC := by decide
theorem test_decode_ret : decode 0b0000_0000_1110_1110 = .ret := by decide
theorem test_decode_se_imm : decode 0b0011_0001_1000_0001 = .seImm 1 0x81 := by decide
theorem test_decode_sne_imm : decode 0b0100_1110_0001_0001 = .sneImm 14 0x11 := by decide
theorem test_decode_se_reg : decode 0b0101_0011_0100_1011 = .seReg 3 4 := by decide
theorem test_decode_sne_reg : decode 0b1001_0011_0100_0101 = .sneReg 3 4 := by decide
theorem test_decode_sys : decode 0b0000_0001_1110_0000 = .sys 0x1E0 := by decide
theorem test_decode_ld_imm : decode 0b0110_1010_0100_0010 = .ldImm 10 0x42 := by decide
theorem test_decode_add_imm : decode 0b0111_0001_0000_0010 = .addImm 1 0x02 := by decide
theorem test_decode_ld_reg : decode 0b1000_0001_0010_0000 = .ldReg 1 2 := by decide
theorem test_decode_or : decode 0b1000_0001_0010_0001 = .orReg 1 2 := by decide
theorem test_decode_and : decode 0b1000_0001_0010_0010 = .andReg 1 2 := by decide
theorem test_decode_xor : decode 0b1000_0001_0010_0011 = .xorReg 1 2 := by decide
theorem test_decode_add_reg : decode 0b1000_0001_0010_0100 = .addReg 1 2 := by decide
theorem test_decode_sub : decode 0b1000_0001_0010_0101 = .subReg 1 2 := by decide
theorem test_decode_shr : decode 0b1000_0001_0010_0110 = .shr 1 2 := by decide
theorem test_decode_subn : decode 0b1000_0001_0010_0111 = .subnReg 1 2 := by decide
theorem test_decode_shl : decode 0b1000_1010_1011_1110 = .shl 10 11 := by decide
theorem test_decode_ld_i : decode 0b1010_0010_1111_0000 = .ldI 0x2F0 := by decide
theorem test_decode_add_i : decode 0b1111_0011_0001_1110 = .addI 3 := by decide
theorem test_decode_ld_f : decode 0b1111_0101_0010_1001 = .ldF 5 := by decide
theorem test_decode_store_regs : decode 0b1111_0010_0101_0101 = .storeRegs 2 := by decide
theorem test_decode_load_regs : decode 0b1111_1111_0110_0101 = .loadRegs 15 := by decide
theorem test_decode_bcd : decode 0b1111_0110_0011_0011 = .bcd 6 := by decide
theorem test_decode_drw : decode 0b1101_0001_0010_0101 = .drw 1 2 5 := by decide
theorem test_decode_cls : decode 0b0000_0000_1110_0000 = .cls := by decide
theorem test_decode_rnd : decode 0b1100_0011_0000_1111 = .rnd 3 0x0F := by decide
theorem test_decode_ld_vx_dt : decode 0b1111_0100_0000_0111 = .ldVxDt 4 := by decide
theorem test_decode_ld_dt_vx : decode 0b1111_0111_0001_0101 = .ldDtVx 7 := by decide
theorem test_decode_ld_st_vx : decode 0b1111_0101_0001_1000 = .ldStVx 5 := by decide
theorem test_decode_skp : decode 0b1110_0010_1001_1110 = .skp 2 := by decide
theorem test_decode_sknp : decode 0b1110_0010_1010_0001 = .sknp 2 := by decide
theorem test_decode_wait_key : decode 0b1111_0110_0000_1010 = .waitKey 6 := by decide
theorem test_decode_unrecognized : decode 0b1011_0001_0010_0011 = .unrecognized 0xB123 := by decide
theorem test_decode_bytes_big_endian : (decodeBytes [0x12, 0x34, 0x56]).toOption = some (.jp 0x234, [0x56]) := by decide
theorem test_decode_one_byte_rejected : (decodeBytes [0x12]).toOption = none := by decide

/-! ## Single ticks -/

/-- One step from the state after reset, changed by `f`, with a word where the next fetch reads it. -/
def run (w : Nat) (f : State → State) : Host.Outcome State Fault Refusal := step ((f State.reset).withFetchWord 16 w)

/-- The next state of an outcome. -/
def nextOf (o : Host.Outcome State Fault Refusal) : Option State :=
  match o with
  | .next t => some t
  | .fault _ => none
  | .refused _ => none

/-- The fault of an outcome. -/
def faultOf (o : Host.Outcome State Fault Refusal) : Option Fault :=
  match o with
  | .next _ => none
  | .fault f => some f
  | .refused _ => none

/-- Two registers of a state set. -/
def two (x : Reg) (a : Byte) (y : Reg) (b : Byte) (s : State) : State := (s.setReg x a).setReg y b

/-- A tick with one set of pressed keys. -/
def press (l : List Nat) (s : State) : State :=
  { s with host := [.tick (l.foldl (fun v k => v.setIfInBounds k true) (Vector.replicate 16 false))] }

/-- The mode set to Modern. -/
def modern (s : State) : State := { s with mode := .modern }

/-- The mode set to Classic. -/
def classic (s : State) : State := { s with mode := .classic }

/-- T1. -/
theorem test_fetch_odd_address : (nextOf (run 0x6A42 (State.setPc · 0x201))).map (fun t => (t.reg 10, t.pc)) = some (0x42, 0x0203) := by decide
/-- T3: the fetch at 0x0FFF. -/
theorem test_fetch_past_memory : faultOf (step (press [] (State.reset.setPc 0x0FFF))) = some (.memOutOfRange 0x1000) := by decide
/-- T4. -/
theorem test_unrecognized_bnnn : (nextOf (run 0xB123 id)).map (fun t => (t.pc, t.diags, t.history)) = some (0x0202, [.unrecognizedOpcode 0xB123], []) := by decide
/-- T21. -/
theorem test_jp : (nextOf (run 0x1FFF id)).map (fun t => t.pc) = some 0x0FFF := by decide
/-- T25. -/
theorem test_call : (nextOf (run 0x2ABC (fun s => (s.setPc 0x204).push 0x300))).map (fun t => (t.pc, t.stack)) = some (0x0ABC, [0x206, 0x300]) := by decide
/-- T27. -/
theorem test_ret : (nextOf (run 0x00EE (fun s => ((s.setPc 0x212).push 0x300).push 0x206))).map (fun t => (t.pc, t.stack)) = some (0x0206, [0x300]) := by decide
/-- T28. -/
theorem test_ret_empty : (nextOf (run 0x00EE (State.setPc · 0x212))).map (fun t => (t.pc, t.diags)) = some (0x0214, [.stackUnderflow]) := by decide
/-- T31. -/
theorem test_se_imm : (nextOf (run 0x3F01 (State.setReg · 15 1))).map (fun t => t.pc) = some 0x0204 := by decide
/-- T33. -/
theorem test_sne_imm : (nextOf (run 0x4210 (State.setReg · 2 0x10))).map (fun t => t.pc) = some 0x0202 := by decide
/-- T36. -/
theorem test_se_reg_low_nibble : (nextOf (run 0x534B (two 3 0x7F 4 0x7F))).map (fun t => t.pc) = some 0x0204 := by decide
/-- T39. -/
theorem test_sne_reg : (nextOf (run 0x9340 (two 3 2 4 2))).map (fun t => t.pc) = some 0x0202 := by decide
/-- T44. -/
theorem test_sys : (nextOf (run 0x0AEE (State.push · 0x300))).map (fun t => (t.pc, t.stack, t.diags)) = some (0x0202, [0x300], [.machineRoutineUnsupported 0x0AEE]) := by decide
/-- T51. -/
theorem test_ld_imm : (nextOf (run 0x6F07 id)).map (fun t => t.reg 15) = some 0x07 := by decide
/-- T53. -/
theorem test_add_imm_wraps : (nextOf (run 0x7102 (two 1 0xFF 15 1))).map (fun t => (t.reg 1, t.reg 15)) = some (0x01, 0x01) := by decide
/-- T56. -/
theorem test_ld_reg : (nextOf (run 0x8120 (State.setReg · 2 0x33))).map (fun t => (t.reg 1, t.reg 2)) = some (0x33, 0x33) := by decide
/-- T57. -/
theorem test_or_keeps_vf : (nextOf (run 0x8121 (fun s => two 1 0xF0 2 0x0F (s.setReg 15 1)))).map (fun t => (t.reg 1, t.reg 15)) = some (0xFF, 0x01) := by decide
/-- T58. -/
theorem test_and : (nextOf (run 0x8122 (fun s => two 1 0xF3 2 0x3F (s.setReg 15 1)))).map (fun t => (t.reg 1, t.reg 15)) = some (0x33, 0x01) := by decide
/-- T60. -/
theorem test_xor_self : (nextOf (run 0x8113 (State.setReg · 1 0xA5))).map (fun t => t.reg 1) = some 0x00 := by decide
/-- T61. -/
theorem test_add_reg_carries : (nextOf (run 0x8124 (two 1 0xFF 2 0x01))).map (fun t => (t.reg 1, t.reg 15)) = some (0x00, 0x01) := by decide
/-- T66. -/
theorem test_add_reg_into_vf : (nextOf (run 0x8F14 (two 1 0x20 15 0xF0))).map (fun t => t.reg 15) = some 0x01 := by decide
/-- T70. -/
theorem test_sub_borrows : (nextOf (run 0x8125 (two 1 0x03 2 0x05))).map (fun t => (t.reg 1, t.reg 15)) = some (0xFE, 0x00) := by decide
/-- T71. -/
theorem test_sub_equal : (nextOf (run 0x8125 (two 1 0x07 2 0x07))).map (fun t => (t.reg 1, t.reg 15)) = some (0x00, 0x01) := by decide
/-- T80. -/
theorem test_shr_classic : (nextOf (run 0x8126 (fun s => classic (two 1 0xFF 2 0x04 s)))).map (fun t => (t.reg 1, t.reg 2, t.reg 15)) = some (0x02, 0x04, 0x00) := by decide
/-- T81. -/
theorem test_shr_modern : (nextOf (run 0x8126 (fun s => modern (two 1 0xFF 2 0x04 s)))).map (fun t => (t.reg 1, t.reg 2, t.reg 15)) = some (0x7F, 0x04, 0x01) := by decide
/-- T75. -/
theorem test_subn : (nextOf (run 0x8127 (two 1 0x03 2 0x05))).map (fun t => (t.reg 1, t.reg 15)) = some (0x02, 0x01) := by decide
/-- T87. -/
theorem test_shl_classic : (nextOf (run 0x812E (fun s => classic (two 1 0x00 2 0x81 s)))).map (fun t => (t.reg 1, t.reg 15)) = some (0x02, 0x01) := by decide
/-- T91. -/
theorem test_shl_modern_into_vf : (nextOf (run 0x8F1E (fun s => modern (s.setReg 15 0x81)))).map (fun t => t.reg 15) = some 0x01 := by decide
/-- T101. -/
theorem test_ld_i : (nextOf (run 0xAFFF (State.setI · 0x1234))).map (fun t => t.i) = some 0x0FFF := by decide
/-- T107. -/
theorem test_add_i_flag : (nextOf (run 0xFF1E (fun s => (s.setReg 15 0xFF).setI 0x0F01))).map (fun t => (t.i, t.reg 15)) = some (0x1000, 0x01) := by decide
/-- T109. -/
theorem test_add_i_wraps : (nextOf (run 0xF31E (fun s => (s.setReg 3 0x10).setI 0xFFF8))).map (fun t => (t.i, t.reg 15)) = some (0x0008, 0x00) := by decide
/-- T115. -/
theorem test_ld_f_whole_byte : (nextOf (run 0xF029 (State.setReg · 0 0xFF))).map (fun t => t.i) = some 0x054B := by decide
/-- T124. -/
theorem test_store_regs_classic_top : (nextOf (run 0xF055 (fun s => classic ((s.setReg 0 0x11).setI 0x0FFF)))).map (fun t => (t.i, t.mem.byteAt 0xFFF)) = some (0x1000, 0x11) := by decide
/-- T125. -/
theorem test_store_regs_fault : faultOf (run 0xF155 (State.setI · 0x0FFF)) = some (.memOutOfRange 0x1000) := by decide
/-- T157 font bytes, R151. -/
theorem test_load_regs_modern : (nextOf (run 0xF165 (fun s => modern ((s.setReg 2 0x77).setI 0x055)))).map (fun t => (t.reg 0, t.reg 1, t.reg 2, t.i)) = some (0x20, 0x60, 0x77, 0x0055) := by decide
/-- T130. -/
theorem test_load_regs_fault : faultOf (run 0xF165 (State.setI · 0x0FFF)) = some (.memOutOfRange 0x1000) := by decide
/-- T131. -/
theorem test_bcd : (nextOf (run 0xF033 (fun s => (s.setReg 0 0xFE).setI 0x300))).map (fun t => (t.mem.byteAt 0x300, t.mem.byteAt 0x301, t.mem.byteAt 0x302)) = some (2, 5, 4) := by decide
/-- T137. -/
theorem test_bcd_fault : faultOf (run 0xF033 (State.setI · 0x0FFE)) = some (.memOutOfRange 0x1000) := by decide
/-- T144, with the font byte F0 at 0x050. -/
theorem test_drw_clips_corner : (nextOf (run 0xD011 (fun s => (two 0 0x3E 1 0x05 s).setI 0x050))).map (fun t => (pixel t.disp 62 5, pixel t.disp 63 5, pixel t.disp 0 5, t.reg 15)) = some (true, true, false, 0) := by decide
/-- T142. -/
theorem test_drw_collides : (nextOf (run 0xD011 (fun s => (s.setDisp (flipPixel blankDisplay 0 0)).setI 0x050))).map (fun t => (pixel t.disp 0 0, pixel t.disp 3 0, t.reg 15)) = some (false, true, 1) := by decide
/-- T140. -/
theorem test_cls : (nextOf (run 0x00E0 (fun s => (s.setDisp (flipPixel blankDisplay 63 31)).setReg 15 1))).map (fun t => (pixel t.disp 63 31, t.reg 15)) = some (false, 0x01) := by decide
/-- T165. -/
theorem test_rnd_zero : (nextOf (run 0xC300 (State.setReg · 3 0x55))).map (fun t => t.reg 3) = some 0x00 := by decide
/-- T170. -/
theorem test_ld_vx_dt : (nextOf (run 0xF407 (State.setDt · 0x1E))).map (fun t => (t.reg 4, t.dt)) = some (0x1E, 0x1E) := by decide
/-- T172. -/
theorem test_ld_dt_vx : (nextOf (run 0xF015 (State.setReg · 0 0x3C))).map (fun t => (t.dt, t.st)) = some (0x3C, 0x00) := by decide
/-- T175. -/
theorem test_ld_st_vx : (nextOf (run 0xFF18 (State.setReg · 15 0xFF))).map (fun t => (t.st, t.dt)) = some (0xFF, 0x00) := by decide
/-- T180. -/
theorem test_skp_pressed : (nextOf (run 0xE29E (fun s => press [5] (s.setReg 2 5)))).map (fun t => t.pc) = some 0x0204 := by decide
/-- T182. -/
theorem test_skp_fault : faultOf (run 0xE29E (fun s => press [0] (s.setReg 2 0x10))) = some (.keyIndexOutOfRange 0x10) := by decide
/-- T184. -/
theorem test_sknp_pressed : (nextOf (run 0xE2A1 (fun s => press [5] (s.setReg 2 5)))).map (fun t => t.pc) = some 0x0202 := by decide
/-- T185. -/
theorem test_sknp_fault : faultOf (run 0xE2A1 (State.setReg · 2 0xFF)) = some (.keyIndexOutOfRange 0xFF) := by decide
/-- T188. -/
theorem test_wait_key_lowest : (nextOf (run 0xF60A (fun s => press [3, 7] (s.setPc 0x20A)))).map (fun t => (t.reg 6, t.pc)) = some (0x03, 0x020C) := by decide
/-- T187. -/
theorem test_wait_key_none : (nextOf (run 0xF60A (fun s => (s.setPc 0x20A).setReg 6 0x55))).map (fun t => (t.reg 6, t.pc, t.history)) = some (0x55, 0x020A, [.waitKey 6]) := by decide
/-- K3: one countdown. -/
theorem test_dec_timers : (nextOf (step { State.reset with dt := 0xFF, st := 0x00, host := [.decTimers] })).map
    (fun t => (t.dt, t.st, t.host)) = some (0xFE, 0x00, []) := by decide
/-- K4: nothing while faulted. -/
theorem test_dec_timers_faulted : (nextOf (step { State.reset with
    dt := 0x05, status := .faulted (.memOutOfRange 0x1000), host := [.decTimers] })).map (fun t => t.dt) = some 0x05 := by
  decide
/-- K5: the sound query. -/
theorem test_sound_active : (State.reset.setSt 2).soundActive = true ∧ State.reset.soundActive = false := by decide
/-- R230: another font and a program are in memory after `Reset`. -/
theorem test_reset_loads : (nextOf (step { State.reset with
    host := [.reset .modern (Vector.replicate 80 0x0F) [0x60, 0xFE]] })).map
    (fun t => (t.mem.byteAt 0x200, t.mem.byteAt 0x201, t.mem.byteAt 0x09F, t.mode)) = some (0x60, 0xFE, 0x0F, .modern) := by
  decide +kernel
/-- The host's probe lays the word out high byte first. -/
theorem test_decode_table_word : decodeTableWord 16 0x8ABE = some (.shl 10 11) := by decide

/-! ## Witnesses: a state that meets the hypotheses of each statement that has some -/

/-- A running core about to tick on a word at 0x200. -/
def ready (w : Nat) : State := State.reset.withFetchWord 16 w

theorem witness_wellFormed : (Instr.drw 15 0 15).wellFormed = true ∧ (Instr.sys 0xFFF).wellFormed = true ∧
    (Instr.unrecognized 0xFFFF).wellFormed = true := by decide

theorem witness_rows_of_equal_priority : ∃ r ∈ opcodeMap, ∃ q ∈ opcodeMap, r.priority = q.priority ∧ r ≠ q :=
  ⟨⟨1, 1, 0xF000, 0x1000⟩, by decide, ⟨2, 1, 0xF000, 0x2000⟩, by decide, by decide⟩

theorem witness_program_fits : ([] : List Byte).length ≤ 3584 ∧ (List.replicate 3584 (0 : Byte)).length ≤ 3584 := by
  rw [List.length_replicate, List.length_nil]; omega

theorem witness_program_too_long : 3584 < (List.replicate 3585 (0 : Byte)).length := by
  rw [List.length_replicate]; omega

/-- A step whose instruction completes, and one whose instruction faults, at the last address a fetch can read. -/
theorem witness_step_runs : (ready 0x6A42).status = .running ∧
    (ready 0x6A42).host = [.tick State.reset.keys] ∧
    readWord (ready 0x6A42).mem (ready 0x6A42).pc = .ok 0x6A42 ∧
    readWord ((State.reset.setPc 0x0FFE).withFetchWord 16 0x6A42).mem 0x0FFE = .ok 0x6A42 ∧
    faultOf (exec (decode 0xF055) ((ready 0xF055).setI 0x1000)) = some (.memOutOfRange 0x1000) :=
  ⟨rfl, rfl, rfl, rfl, by decide⟩

/-- The two clauses of the fetch at their boundary. -/
theorem witness_fetch_bounds : (State.reset.setPc 0x0FFE).pc.toNat ≤ 0x0FFE ∧ 0x0FFF ≤ (State.reset.setPc 0x0FFF).pc.toNat ∧
    (press [] State.reset).host = [.tick State.reset.keys] ∧ State.reset.status = .running :=
  ⟨by decide, by decide, rfl, rfl⟩

theorem witness_faulted : ({ State.reset with status := .faulted (.memOutOfRange 0x1000) } : State).status =
    .faulted (.memOutOfRange 0x1000) := rfl

theorem witness_step_faults : step (press [] (State.reset.setPc 0x0FFF)) = .fault (.memOutOfRange 0x1000) := rfl

theorem witness_unrecognized : (ready 0xB123).status = .running ∧ (ready 0xB123).host = [.tick State.reset.keys] ∧
    readWord (ready 0xB123).mem (ready 0xB123).pc = .ok 0xB123 ∧ decode 0xB123 = .unrecognized 0xB123 :=
  ⟨rfl, rfl, rfl, by decide⟩

theorem witness_spin : (ready 0x1200).status = .running ∧ (ready 0x1200).host = [.tick State.reset.keys] ∧
    (ready 0x1200).pc = (0x200 : Addr12).zeroExtend 16 ∧
    readWord (ready 0x1200).mem (ready 0x1200).pc = .ok (wordNNN 0x1 0x200) :=
  ⟨rfl, rfl, rfl, rfl⟩

theorem witness_tick_completes : ∃ t, perform (.tick State.reset.keys) (ready 0x00EE) = .next t := ⟨_, rfl⟩

/-- The two clauses of the host's next transaction: a list that begins with one, and an empty list. -/
theorem witness_host : ({ State.reset with host := [.decTimers] } : State).host = [.decTimers] ∧ State.reset.host = [] :=
  ⟨rfl, rfl⟩

/-- An instruction that completes and does not write `PC`. -/
theorem witness_keeps_pc : writesPc (.ldImm 3 0x10) = false ∧ ∃ t, exec (.ldImm 3 0x10) State.reset = .next t :=
  ⟨rfl, _, rfl⟩

/-- The two clauses of `DecTimers`: a running core and a faulted one. -/
theorem witness_dec_timers : ({ State.reset with host := [.decTimers] } : State).status = .running ∧
    ({ State.reset with host := [.decTimers] } : State).host = [.decTimers] ∧
    ({ State.reset with status := .faulted (.keyIndexOutOfRange 0x10), host := [.decTimers] } : State).status =
      .faulted (.keyIndexOutOfRange 0x10) := ⟨rfl, rfl, rfl⟩

theorem witness_ret_stack : (State.reset.push 0x206).stack = [0x206] ∧ State.reset.stack = [] := ⟨rfl, rfl⟩

theorem witness_sys_word : (0x0E1 : Addr12) ≠ 0x0E0 ∧ (0x0E1 : Addr12) ≠ 0x0EE := by decide

theorem witness_shift_source : (2 : Nat) = (if (classic (State.reset.setReg 2 2)).mode = .classic
    then (classic (State.reset.setReg 2 2)).reg 2 else (classic (State.reset.setReg 2 2)).reg 1).toNat := by decide

/-- The two clauses of a byte access at their boundary. -/
theorem witness_byte_access : (0x0FFF : Word).toNat < 0x1000 ∧ 0x1000 ≤ (0x1000 : Word).toNat := by decide

/-- The two clauses of FX55 and FX65 at their boundary: V0 to V15 end exactly at 0x0FFF, and one byte past it. -/
theorem witness_block_bounds : (State.reset.setI 0x0FF0).i.toNat + (15 : Reg).val < 0x1000 ∧
    0x1000 ≤ (State.reset.setI 0x0FF1).i.toNat + (15 : Reg).val ∧ (14 : Reg) < 15 := by decide

/-- The two clauses of FX33 at their boundary. -/
theorem witness_bcd_bounds : (State.reset.setI 0x0FFD).i.toNat + 2 < 0x1000 ∧
    0x1000 ≤ (State.reset.setI 0x0FFE).i.toNat + 2 := by decide

/-- The clauses of DXYN: no rows at all with `I` past memory, one row ending at 0x0FFF, one row past it, each with the
coordinates of the registers. -/
theorem witness_draw_bounds :
    (63 : Nat) = ((two 0 0x3F 1 0x1F State.reset).reg 0).toNat % 64 ∧
    (31 : Nat) = ((two 0 0x3F 1 0x1F State.reset).reg 1).toNat % 32 ∧
    ((0 : Nibble) = 0 ∨ (State.reset.setI 0x1000).i.toNat + min (0 : Nibble).toNat (32 - 31) ≤ 0x1000) ∧
    ((15 : Nibble) = 0 ∨ (State.reset.setI 0x0FFF).i.toNat + min (15 : Nibble).toNat (32 - 31) ≤ 0x1000) ∧
    ((1 : Nibble) ≠ 0 ∧ 0x1000 < (State.reset.setI 0x1000).i.toNat + min (1 : Nibble).toNat (32 - 31)) ∧
    (0 : Reg) ≠ vf ∧ (1 : Reg) ≠ vf := by decide

theorem witness_rnd_completes : (∃ t, exec (.rnd 3 0x10) State.reset = .next t) ∧ (0x10 : Byte) ≠ 0 ∧
    ∃ k, (0x10 : Byte).toNat = 2 ^ k := ⟨⟨_, rfl⟩, by decide, 4, by decide⟩

/-- The two clauses of the key skips at their boundary. -/
theorem witness_key_index : ((State.reset.setReg 2 0x0F).reg 2).toNat = (15 : Reg).val ∧
    15 < ((State.reset.setReg 2 0x10).reg 2).toNat := by decide

/-- The two clauses of FX0A: key 15 alone pressed, and none. -/
theorem witness_keys : ((press [15] State.reset).host = [.tick ((Vector.replicate 16 false).set 15 true)]) ∧
    ((Vector.replicate 16 false).set 15 true : Keys)[(15 : Reg).val] = true ∧
    (∀ j : Reg, j < 15 → ((Vector.replicate 16 false).set 15 true : Keys)[j.val] = false) ∧
    (∀ k : Reg, State.reset.keys[k.val] = false) := ⟨rfl, by decide, by decide, by decide⟩

theorem witness_key_wait : (ready 0xF60A).status = .running ∧ (ready 0xF60A).host = [.tick State.reset.keys] ∧
    readWord (ready 0xF60A).mem (ready 0xF60A).pc = .ok (wordXNN 0xF 6 0x0A) ∧
    (∀ k : Reg, State.reset.keys[k.val] = false) := ⟨rfl, rfl, rfl, by decide⟩

/-- Writers: an instruction that completes and is none of the writers of `I`, the stack, the timers, the display, memory,
and whose destinations leave out a register. -/
theorem witness_no_writer : (∃ t, exec (.ldImm 3 0x10) State.reset = .next t) ∧ (4 : Reg) ∉ destinations (.ldImm 3 0x10) ∧
    readsMode (.ldImm 3 0x10) = false ∧ (∀ x y n, Instr.ldImm 3 0x10 ≠ .drw x y n) ∧ (∀ x, Instr.ldImm 3 0x10 ≠ .skp x) ∧
    (∀ x, Instr.ldImm 3 0x10 ≠ .storeRegs x) := ⟨⟨_, rfl⟩, by decide, rfl, by simp, by simp, by simp⟩

theorem witness_exec_faults : exec (.skp 2) (State.reset.setReg 2 0x10) = .fault (.keyIndexOutOfRange 0x10) ∧
    exec (.bcd 2) (State.reset.setI 0x0FFE) = .fault (.memOutOfRange 0x1000) := ⟨rfl, rfl⟩

theorem witness_mode_fixed : (∃ t, step (ready 0x6A42) = .next t) ∧
    (∀ m f p rest, (ready 0x6A42).host ≠ .reset m f p :: rest) := ⟨⟨_, rfl⟩, by
  intro m f p rest h
  have : (ready 0x6A42).host = [.tick State.reset.keys] := rfl
  rw [this] at h
  cases h⟩

theorem witness_invariant_memory : (ready 0x6A42).mem.wf := by decide +kernel

theorem witness_invariant : Inv (ready 0x6A42) :=
  { mem := witness_invariant_memory
    pc := by decide
    stack := fun w hw => absurd hw (by simp [ready, State.withFetchWord, State.placeWord, State.reset])
    history := Nat.zero_le _ }

theorem witness_invariant_step : Inv (ready 0x6A42) ∧ ∃ t, step (ready 0x6A42) = .next t :=
  ⟨witness_invariant, witness_mode_fixed.1⟩

end Sys2Proof.Tests
end

section
/-! The frame of every instruction (00_scope.md R11): one rule per state operation, the changes an instruction may make,
and the theorem that no instruction makes another. -/

namespace Sys2Proof.Machine

/-! ## Frame rules, one per state operation -/

/-- `Frame`, and two facts on the memory it leaves out: with no byte named, the list of cells itself is the same; and the
canonical form is kept. -/
structure Keeps (c : Changes) (s t : State) : Prop extends Frame c s t where
  cells : c.memLen = 0 → t.mem = s.mem
  canonical : s.mem.wf → t.mem.wf

variable {c : Changes} {s t u : State}

theorem Keeps.refl (c : Changes) (s : State) : Keeps c s s := by
  constructor
  · constructor <;> intros <;> rfl
  · exact fun _ => rfl
  · exact id

theorem Keeps.trans (h : Keeps c s t) (k : Keeps c t u) : Keeps c s u where
  regs r hr := (k.regs r hr).trans (h.regs r hr)
  index hc := (k.index hc).trans (h.index hc)
  pc hc := (k.pc hc).trans (h.pc hc)
  stack hc := (k.stack hc).trans (h.stack hc)
  delay hc := (k.delay hc).trans (h.delay hc)
  sound hc := (k.sound hc).trans (h.sound hc)
  mem a ha := (k.mem a ha).trans (h.mem a ha)
  display hc := (k.display hc).trans (h.display hc)
  diags hc := (k.diags hc).trans (h.diags hc)
  fresh hc := (k.fresh hc).trans (h.fresh hc)
  mode := k.mode.trans h.mode
  status := k.status.trans h.status
  keys := k.keys.trans h.keys
  host := k.host.trans h.host
  history := k.history.trans h.history
  cells hc := (k.cells hc).trans (h.cells hc)
  canonical hm := k.canonical (h.canonical hm)

theorem Keeps.setReg {x : Reg} {b : Byte} (hx : x ∈ c.regs) : Keeps c s (s.setReg x b) :=
  { Keeps.refl c s with regs := fun _ hr => s.reg_setReg_of_ne b (ne_of_mem_of_not_mem hx hr).symm }

theorem Keeps.setRegThenFlag {x : Reg} {b : Byte} {f : Bool} (hx : x ∈ c.regs) (hf : vf ∈ c.regs) :
    Keeps c s (s.setRegThenFlag x b f) :=
  (Keeps.setReg hx).trans (Keeps.setReg hf)

theorem Keeps.setLowRegs {bs : List Byte} (h : ∀ r : Reg, r.val < bs.length → r ∈ c.regs) :
    Keeps c s (s.setLowRegs bs) :=
  { Keeps.refl c s with
    regs := fun r hr => (s.reg_setLowRegs bs r).trans (if_neg fun hlt => hr (h r hlt)) }

theorem Keeps.setI {w : Word} (h : w = s.i ∨ c.index = true) : Keeps c s (s.setI w) :=
  { Keeps.refl c s with index := fun hc => h.resolve_right (by simp [hc]) }

theorem Keeps.setPc {w : Word} (h : c.pc = true) : Keeps c s (s.setPc w) :=
  { Keeps.refl c s with pc := fun hc => by simp [h] at hc }

theorem Keeps.skipIf {b : Bool} (h : c.pc = true) : Keeps c s (s.skipIf b) :=
  s.skipIf_eq b ▸ Keeps.setPc h

theorem Keeps.push {w : Word} (h : c.stack = true) : Keeps c s (s.push w) :=
  { Keeps.refl c s with stack := fun hc => by simp [h] at hc }

theorem Keeps.setStack {ws : List Word} (h : c.stack = true) : Keeps c s (s.setStack ws) :=
  { Keeps.refl c s with stack := fun hc => by simp [h] at hc }

theorem Keeps.setDt {b : Byte} (h : c.delay = true) : Keeps c s (s.setDt b) :=
  { Keeps.refl c s with delay := fun hc => by simp [h] at hc }

theorem Keeps.setSt {b : Byte} (h : c.sound = true) : Keeps c s (s.setSt b) :=
  { Keeps.refl c s with sound := fun hc => by simp [h] at hc }

theorem Keeps.setDisp {d : Display} (h : c.display = true) : Keeps c s (s.setDisp d) :=
  { Keeps.refl c s with display := fun hc => by simp [h] at hc }

theorem Keeps.emit {d : Diagnostic} (h : c.diags = true) : Keeps c s (s.emit d) :=
  { Keeps.refl c s with diags := fun hc => by simp [h] at hc }

theorem Keeps.takeFresh (h : c.fresh = true) : Keeps c s s.takeFresh :=
  { Keeps.refl c s with fresh := fun hc => by simp [h] at hc }

/-- A block write that completes leaves every address outside the block alone (20_memory.md R54). -/
theorem writeBytes_byteAt {m m' : Memory} {a : Word} {bytes : List Byte} (h : writeBytes m a bytes = .ok m') {k : Nat}
    (hk : ¬(a.toNat ≤ k ∧ k < a.toNat + bytes.length)) : m'.byteAt k = m.byteAt k := by
  by_cases hr : bytes = [] ∨ a.toNat + bytes.length ≤ 0x1000
  · rw [writeBytes_eq_ok bytes m a hr] at h
    cases h
    rw [Memory.byteAt_load, if_neg hk]
  · rw [writeBytes_eq_error bytes m a (by tauto) (by omega)] at h
    cases h

theorem Keeps.setMem {a : Word} {bytes : List Byte} {m : Memory} (h : writeBytes s.mem a bytes = .ok m)
    (hb : c.memBase = a.toNat) (hl : c.memLen = bytes.length) : Keeps c s (s.setMem m) :=
  { Keeps.refl c s with
    mem := fun k hk => writeBytes_byteAt h (by rwa [hb, hl] at hk)
    cells := fun hc => by
      obtain rfl : bytes = [] := List.eq_nil_of_length_eq_zero (hl ▸ hc)
      cases h; rfl
    canonical := fun hm => writeBytes_wf hm h }

/-! ## The changes of each instruction -/

/-- The instructions that may change `I`, in a mode (10_state.md R22, R31). -/
def writesIndex (m : Mode) : Instr → Bool
  | .ldI _ | .addI _ | .ldF _ => true
  | .storeRegs _ | .loadRegs _ => m == .classic
  | _ => false

/-- The instructions that may change the stack (10_state.md R24). -/
def writesStack : Instr → Bool
  | .call _ | .ret => true
  | _ => false

/-- The instruction that changes `DT` (10_state.md R25). -/
def writesDelay : Instr → Bool
  | .ldDtVx _ => true
  | _ => false

/-- The instruction that changes `ST` (10_state.md R26). -/
def writesSound : Instr → Bool
  | .ldStVx _ => true
  | _ => false

/-- The instructions that may change the display (10_state.md R28). -/
def writesDisplay : Instr → Bool
  | .cls | .drw _ _ _ => true
  | _ => false

/-- How many bytes an instruction stores (44_memory_transfer.md R150, R152). -/
def storeLength : Instr → Nat
  | .storeRegs x => x.val + 1
  | .bcd _ => 3
  | _ => 0

/-- The instructions that may issue a diagnostic (60_exceptions.md R201 to R203). -/
def mayEmit : Instr → Bool
  | .ret | .sys _ | .unrecognized _ => true
  | _ => false

/-- The instruction that draws a free value, where its immediate is not 0 (46_random.md R170). -/
def drawsFresh : Instr → Bool
  | .rnd _ nn => nn != 0
  | _ => false

/-- What an instruction may change in a state. -/
def changes (i : Instr) (s : State) : Changes where
  regs := destinations i
  index := writesIndex s.mode i
  pc := writesPc i
  stack := writesStack i
  delay := writesDelay i
  sound := writesSound i
  memBase := s.i.toNat
  memLen := storeLength i
  display := writesDisplay i
  diags := mayEmit i
  fresh := drawsFresh i

/-- FX55 and FX65 move `I` in `Classic` only (R153). -/
theorem indexAfterBlock_eq_or_classic (s : State) (x : Reg) : s.indexAfterBlock x = s.i ∨ (s.mode == .classic) = true := by
  cases hm : s.mode <;> simp [State.indexAfterBlock, hm]

/-- What a completed return did (41_control_flow.md R102). -/
theorem exec_ret_cases (h : exec .ret s = .next t) :
    t = s.emit .stackUnderflow ∨ ∃ w rest, s.stack = w :: rest ∧ t = (s.setStack rest).setPc w := by
  simp only [exec, execRet] at h
  split at h <;> cases h
  · exact .inl rfl
  · next w rest hs => exact .inr ⟨w, rest, hs, rfl⟩

/-- What a completed wait for a key did (48_keyboard.md R187). -/
theorem exec_waitKey_cases {x : Reg} (h : exec (.waitKey x) s = .next t) :
    (∃ k : Reg, t = s.setReg x (BitVec.ofNat 8 k.val)) ∨ t = s.setPc (s.pc - 2) := by
  simp only [exec, execWaitKey] at h
  split at h <;> cases h
  · exact .inl ⟨_, rfl⟩
  · exact .inr rfl

/-- Every instruction that completes makes no change but its own. -/
theorem exec_keeps {i : Instr} (h : exec i s = .next t) : Keeps (changes i s) s t := by
  cases i
  case ldImm | addImm | ldReg | orReg | andReg | xorReg | ldVxDt => cases h; exact Keeps.setReg List.mem_cons_self
  case addReg | subReg | shr | subnReg | shl =>
    cases h; exact Keeps.setRegThenFlag List.mem_cons_self (List.mem_cons_of_mem _ List.mem_cons_self)
  case seImm | sneImm | seReg | sneReg => cases h; exact Keeps.skipIf rfl
  case skp | sknp => obtain ⟨_, -, rfl⟩ := complete_eq_next h; exact Keeps.skipIf rfl
  case sys | unrecognized => cases h; exact Keeps.emit rfl
  case jp => cases h; exact Keeps.setPc rfl
  case call => cases h; exact (Keeps.push rfl).trans (Keeps.setPc rfl)
  case ret =>
    obtain rfl | ⟨_, _, -, rfl⟩ := exec_ret_cases h
    · exact Keeps.emit rfl
    · exact (Keeps.setStack rfl).trans (Keeps.setPc rfl)
  case ldI | ldF => cases h; exact Keeps.setI (.inr rfl)
  case addI =>
    simp only [exec, execAddI] at h
    split at h <;> cases h
    · exact (Keeps.setI (.inr rfl)).trans (Keeps.setReg List.mem_cons_self)
    · exact Keeps.setI (.inr rfl)
  case storeRegs x =>
    obtain ⟨m, hm, rfl⟩ := complete_eq_next h
    exact (Keeps.setMem hm rfl (s.lowRegs_length x).symm).trans (Keeps.setI (indexAfterBlock_eq_or_classic s x))
  case loadRegs x =>
    obtain ⟨bs, hbs, rfl⟩ := complete_eq_next h
    have hreg : ∀ r : Reg, r.val < bs.length → r ∈ (changes (.loadRegs x) s).regs := fun r hr => by
      rw [readBytes_length hbs] at hr
      simp [changes, destinations]; omega
    exact (Keeps.setLowRegs hreg).trans (Keeps.setI (indexAfterBlock_eq_or_classic s x))
  case bcd => obtain ⟨m, hm, rfl⟩ := complete_eq_next h; exact Keeps.setMem hm rfl rfl
  case drw =>
    obtain ⟨rows, -, rfl⟩ := complete_eq_next h
    exact (Keeps.setDisp rfl).trans (Keeps.setReg List.mem_cons_self)
  case cls => cases h; exact Keeps.setDisp rfl
  case rnd x nn =>
    simp only [exec, execRnd] at h
    split at h <;> cases h
    · exact Keeps.setReg List.mem_cons_self
    · next hnn => exact (Keeps.takeFresh (bne_iff_ne.2 hnn)).trans (Keeps.setReg List.mem_cons_self)
  case ldDtVx => cases h; exact Keeps.setDt rfl
  case ldStVx => cases h; exact Keeps.setSt rfl
  case waitKey =>
    obtain ⟨_, rfl⟩ | rfl := exec_waitKey_cases h
    · exact Keeps.setReg List.mem_cons_self
    · exact Keeps.setPc rfl

end Sys2Proof.Machine
end

section
/-! What no instruction changes but its writers, what no transaction changes but `Reset`, and what the history and the reset
state hold. -/

namespace Sys2Proof.Machine

variable {s t : State} {i : Instr}

/-! ## Writers (10_state.md R20 to R34) -/

theorem writesIndex_eq_false {m : Mode} (h1 : ∀ a, i ≠ .ldI a) (h2 : ∀ x, i ≠ .addI x) (h3 : ∀ x, i ≠ .ldF x)
    (h4 : m = .classic → (∀ x, i ≠ .storeRegs x) ∧ ∀ x, i ≠ .loadRegs x) : writesIndex m i = false := by
  unfold writesIndex
  split
  · exact absurd rfl (h1 _)
  · exact absurd rfl (h2 _)
  · exact absurd rfl (h3 _)
  · exact beq_false_of_ne fun hm => (h4 hm).1 _ rfl
  · exact beq_false_of_ne fun hm => (h4 hm).2 _ rfl
  · rfl

theorem writesStack_eq_false (h1 : ∀ a, i ≠ .call a) (h2 : i ≠ .ret) : writesStack i = false := by
  unfold writesStack
  split
  · exact absurd rfl (h1 _)
  · exact absurd rfl h2
  · rfl

theorem writesDelay_eq_false (h : ∀ x, i ≠ .ldDtVx x) : writesDelay i = false := by
  unfold writesDelay
  split
  · exact absurd rfl (h _)
  · rfl

theorem writesSound_eq_false (h : ∀ x, i ≠ .ldStVx x) : writesSound i = false := by
  unfold writesSound
  split
  · exact absurd rfl (h _)
  · rfl

theorem writesDisplay_eq_false (h1 : i ≠ .cls) (h2 : ∀ x y n, i ≠ .drw x y n) : writesDisplay i = false := by
  unfold writesDisplay
  split
  · exact absurd rfl h1
  · exact absurd rfl (h2 _ _ _)
  · rfl

theorem storeLength_eq_zero (h1 : ∀ x, i ≠ .storeRegs x) (h2 : ∀ x, i ≠ .bcd x) : storeLength i = 0 := by
  unfold storeLength
  split
  · exact absurd rfl (h1 _)
  · exact absurd rfl (h2 _)
  · rfl

/-- Settles O52, from the frame of every instruction. -/
theorem registersChangeOnlyByTheirWriters : Obligations.RegistersChangeOnlyByTheirWriters :=
  fun _ _ _ h => (exec_keeps h).regs

/-- Settles O53, from the frame of every instruction and the lists of writers. -/
theorem stateChangesOnlyByItsWriters : Obligations.StateChangesOnlyByItsWriters := by
  intro i s t h
  have hk := exec_keeps h
  refine ⟨fun h1 h2 h3 h4 => ?_, hk.pc, fun h1 h2 => ?_, fun h1 => ?_, fun h1 => ?_, fun h1 h2 => ?_, fun h1 h2 => ?_,
    hk.mode, hk.status, hk.history⟩
  · exact hk.index (writesIndex_eq_false h1 h2 h3 h4)
  · exact hk.stack (writesStack_eq_false h1 h2)
  · exact hk.delay (writesDelay_eq_false h1)
  · exact hk.sound (writesSound_eq_false h1)
  · exact hk.display (writesDisplay_eq_false h1 h2)
  · exact hk.cells (storeLength_eq_zero h1 h2)

/-! ## The mode (10_state.md R31, 70_reset_and_hazards.md R234) -/

theorem tick_mode {ks : Keys} (h : tick ks s = .next t) : t.mode = s.mode := by
  rcases tick_cases h with ⟨_, -, rfl⟩ | ⟨-, w, u, -, hu, rfl⟩
  · rfl
  · obtain ⟨_, hr, -⟩ := State.record_eq u (decode w)
    rw [hr]
    exact (exec_keeps hu).mode

theorem decTimers_mode (s : State) : (decTimers s).mode = s.mode := by
  cases hs : s.status with
  | running => rw [decTimers_of_running hs]; rfl
  | faulted f => rw [decTimers_of_faulted hs]

/-- No transaction but `Reset` changes the mode. -/
theorem perform_mode {op : HostOp} (hop : ∀ m f p, op ≠ .reset m f p) (h : perform op s = .next t) : t.mode = s.mode := by
  cases op with
  | tick ks => exact tick_mode h
  | decTimers => cases h; exact decTimers_mode s
  | reset m f p => exact absurd rfl (hop m f p)

theorem nextOp_mode (s : State) : (nextOp s).2.mode = s.mode := by
  rcases nextOp_cases s with ⟨_, _, -, h⟩ | ⟨-, h⟩ <;> simp only [h, State.takeFresh_mode]

/-- The next transaction is a `Reset` only where the host's list says so (log 3). -/
theorem nextOp_ne_reset (h : ∀ m f p rest, s.host ≠ .reset m f p :: rest) (m : Mode) (f : Font) (p : List Byte) :
    (nextOp s).1 ≠ .reset m f p := by
  rcases nextOp_cases s with ⟨op, rest, hh, hn⟩ | ⟨-, hn⟩ <;> rw [hn]
  · rintro rfl
    exact h m f p rest hh
  · rcases freeOp_cases s.fresh with hf | hf <;> rw [hf] <;> simp

/-- Settles O58, from the mode of each transaction. -/
theorem modeIsFixedBetweenResets : Obligations.ModeIsFixedBetweenResets :=
  fun s _ h hh => (perform_mode (nextOp_ne_reset hh) h).trans (nextOp_mode s)

/-! ## A faulted core (10_state.md R34, 60_exceptions.md R207) -/

/-- A faulted core answers every transaction but `Reset` with the state it is in. -/
theorem perform_of_faulted {f : Fault} {op : HostOp} (hs : s.status = .faulted f) (hop : ∀ m fo p, op ≠ .reset m fo p) :
    perform op s = .next s := by
  cases op with
  | tick ks => exact tick_of_faulted hs
  | decTimers => exact congrArg Host.Outcome.next (decTimers_of_faulted hs)
  | reset m fo p => exact absurd rfl (hop m fo p)

/-- Settles O13: `Tick` and `DecTimers` are transactions other than `Reset`. -/
theorem faultedCoreIgnoresTickAndDecTimers : Obligations.FaultedCoreIgnoresTickAndDecTimers :=
  fun _ _ _ hs => ⟨perform_of_faulted hs (by simp), perform_of_faulted hs (by simp)⟩

theorem afterStep_of_fault {f : Fault} (h : step s = .fault f) : afterStep s = (nextOp s).2.afterFault f := by
  simp only [afterStep, h]

/-- `Reset` with a program that fits completes from any state (70_reset_and_hazards.md R230). -/
theorem performReset_of_fits {m : Mode} {fo : Font} {p : List Byte} (s : State) (hp : p.length ≤ 3584) :
    performReset m fo p s = .next (resetState m fo p s) := if_pos hp

/-- Settles O14: the state after a fault is faulted, and only `Reset` acts on a faulted core. -/
theorem faultLatchesTheStatusUntilReset : Obligations.FaultLatchesTheStatusUntilReset := by
  intro s f h
  have hstatus : (afterStep s).status = .faulted f := by rw [afterStep_of_fault h]; rfl
  have hmode : (afterStep s).mode = s.mode := by rw [afterStep_of_fault h]; exact nextOp_mode s
  exact ⟨hstatus, hmode, fun _ hop => perform_of_faulted hstatus hop,
    fun _ _ _ hp => ⟨_, performReset_of_fits _ hp, rfl⟩⟩

/-! ## The history (10_state.md R30, 40_tick_cycle.md R95) -/

/-- Entering an instruction in the last 100 of a sequence gives the last 100 of the longer sequence. -/
theorem appendCapped_last (l : List Instr) (i : Instr) :
    appendCapped (l.drop (l.length - 100)) i = (l ++ [i]).drop ((l ++ [i]).length - 100) := by
  have hlen : (l ++ [i]).length = l.length + 1 := List.length_append
  unfold appendCapped
  rw [List.length_drop, hlen, List.drop_append_of_le_length (by omega)]
  split
  · next hlt =>
    rw [show l.length - 100 = 0 by simp only [Config.historyCap] at hlt; omega,
      show l.length + 1 - 100 = 0 by simp only [Config.historyCap] at hlt; omega]
  · next hge =>
    simp only [Config.historyCap] at hge
    rw [List.drop_drop, show l.length - 100 + (l.length - (l.length - 100) + 1 - 100) = l.length + 1 - 100 by omega]

/-- Settles O18, by induction on the sequence from its end. -/
theorem historyHoldsTheLastHundred : Obligations.HistoryHoldsTheLastHundred := by
  intro l
  induction l using List.reverseRecOn with
  | nil => rfl
  | append_singleton l i ih => rw [List.foldl_concat, ih, appendCapped_last]

/-! ## The reset state (10_state.md R37) -/

theorem fontBytes_length : Config.fontBytes.length = 80 := by decide

/-- The memory that lists nothing holds the default font at 0x050 (70_reset_and_hazards.md R232). -/
theorem initial_font {j : Nat} (hj : j < 80) : Memory.initial (0x050 + j) = Config.font[j] := by
  rw [Memory.initial, if_pos (Nat.le_add_right _ _), Nat.add_sub_cancel_left]
  exact (List.getElem_eq_getD (h := fontBytes_length ▸ hj) 0x00).symm

theorem initial_of_not_font {a : Nat} (h : ¬(0x050 ≤ a ∧ a < 0x0A0)) : Memory.initial a = 0x00 := by
  unfold Memory.initial
  split
  · next hge => exact List.getD_eq_default _ _ (by simp only [fontBytes_length, Config.fontBase] at hge ⊢; omega)
  · rfl

/-- Settles O10: the memory of `State.reset` lists nothing, and its display is the blank one. -/
theorem resetStateHoldsTheListedValues : Obligations.ResetStateHoldsTheListedValues :=
  ⟨by decide, rfl, rfl, rfl, rfl, rfl, rfl, rfl, pixel_blank, fun _ hj => initial_font hj,
    fun _ h => initial_of_not_font h⟩

end Sys2Proof.Machine
end

section
/-! The invariant of a run: reset meets it and every transaction that completes keeps it (10_state.md R23, R30;
41_control_flow.md R101). -/

namespace Sys2Proof.Machine

variable {s t : State} {i : Instr}

theorem word_add_two_toNat {a : Word} (h : a.toNat ≤ 0x1000) : (a + 2).toNat = a.toNat + 2 := by bv_omega

theorem skipIf_pc_le (c : Bool) (h : s.pc.toNat ≤ 0x1000) : (s.skipIf c).pc.toNat ≤ 0x1002 := by
  rw [State.skipIf_eq, State.setPc_pc]
  split
  · rw [word_add_two_toNat h]
    omega
  · omega

theorem addrOperand_le (nnn : Addr12) : (addrOperand nnn).toNat ≤ 0x0FFF := by
  have := nnn.isLt
  rw [addrOperand_toNat]
  omega

/-- From an advanced `PC` every instruction leaves `PC` at most 0x1002: a skip adds 2 once, the rewind of FX0A undoes the
advance, and the other writers jump to an address or to a return address (10_state.md R23). -/
theorem exec_pc_le (hlo : 2 ≤ s.pc.toNat) (hhi : s.pc.toNat ≤ 0x1000) (hst : ∀ w ∈ s.stack, w.toNat ≤ 0x1000)
    (h : exec i s = .next t) : t.pc.toNat ≤ 0x1002 := by
  by_cases hw : writesPc i = false
  · rw [(exec_keeps h).pc hw]
    omega
  cases i <;> simp only [writesPc, not_true_eq_false] at hw
  case jp a | call a => cases h; exact (addrOperand_le a).trans (by decide)
  case ret =>
    obtain rfl | ⟨w, rest, hs, rfl⟩ := exec_ret_cases h
    · exact hhi.trans (by decide)
    · exact (hst w (hs ▸ List.mem_cons_self)).trans (by decide)
  case seImm | sneImm | seReg | sneReg => cases h; exact skipIf_pc_le _ hhi
  case skp | sknp => obtain ⟨_, -, rfl⟩ := complete_eq_next h; exact skipIf_pc_le _ hhi
  case waitKey =>
    obtain ⟨_, rfl⟩ | rfl := exec_waitKey_cases h
    · exact hhi.trans (by decide)
    · simp only [State.setPc_pc, BitVec.toNat_sub_of_le (show (2 : Word) ≤ s.pc from hlo)]
      omega

/-- An advanced `PC` is the only return address an instruction adds (41_control_flow.md R101, R102). -/
theorem exec_stack_le (hhi : s.pc.toNat ≤ 0x1000) (hst : ∀ w ∈ s.stack, w.toNat ≤ 0x1000) (h : exec i s = .next t) :
    ∀ w ∈ t.stack, w.toNat ≤ 0x1000 := by
  by_cases hw : writesStack i = false
  · rwa [(exec_keeps h).stack hw]
  cases i <;> simp only [writesStack, not_true_eq_false] at hw
  case call => cases h; exact List.forall_mem_cons.2 ⟨hhi, hst⟩
  case ret =>
    obtain rfl | ⟨_, _, hs, rfl⟩ := exec_ret_cases h
    · exact hst
    · exact (List.forall_mem_cons.1 (hs ▸ hst)).2

/-- The invariant across `exec`, entered with an advanced `PC`. -/
theorem Inv.after_exec (hi : Inv s) (hlo : 2 ≤ s.pc.toNat) (hhi : s.pc.toNat ≤ 0x1000) (h : exec i s = .next t) : Inv t where
  mem := (exec_keeps h).canonical hi.mem
  pc := exec_pc_le hlo hhi hi.stack h
  stack := exec_stack_le hhi hi.stack h
  history := (exec_keeps h).history ▸ hi.history

/-- The invariant speaks of memory, `PC`, stack and history only. -/
theorem Inv.congr (hi : Inv s) (hm : t.mem = s.mem) (hp : t.pc = s.pc) (hs : t.stack = s.stack)
    (hh : t.history = s.history) : Inv t where
  mem := hm ▸ hi.mem
  pc := hp ▸ hi.pc
  stack := hs ▸ hi.stack
  history := hh ▸ hi.history

theorem Inv.after_record (hi : Inv s) (i : Instr) : Inv (s.record i) := by
  obtain ⟨h, hr, hh⟩ := State.record_eq s i
  rw [hr]
  refine ⟨hi.mem, hi.pc, hi.stack, ?_⟩
  rcases hh with rfl | rfl
  · exact hi.history
  · exact appendCapped_length i hi.history

/-- A fetch that answers a word leaves `PC` advanced to an address from 2 to 0x1000 (40_tick_cycle.md R91, R92). -/
theorem advance_bounds {w : Word} (h : readWord s.mem s.pc = .ok w) :
    2 ≤ (s.pc + 2).toNat ∧ (s.pc + 2).toNat ≤ 0x1000 := by
  have hb := readWord_ok_bound h
  rw [word_add_two_toNat (by omega)]
  omega

theorem Inv.after_tick {ks : Keys} (hi : Inv s) (h : tick ks s = .next t) : Inv t := by
  rcases tick_cases h with ⟨_, -, rfl⟩ | ⟨-, w, u, hf, hu, rfl⟩
  · exact hi
  · obtain ⟨hlo, hhi⟩ := advance_bounds hf
    have hentry : Inv (s.setKeys ks).advance := ⟨hi.mem, hhi.trans (by decide), hi.stack, hi.history⟩
    exact (hentry.after_exec hlo hhi hu).after_record _

theorem Inv.after_decTimers (hi : Inv s) : Inv (decTimers s) := by
  cases hs : s.status with
  | running => rw [decTimers_of_running hs]; exact hi.congr rfl rfl rfl rfl
  | faulted f => rwa [decTimers_of_faulted hs]

/-- Settles O59: nothing is listed, pushed or recorded, and `PC` is 0x0200. -/
theorem resetMeetsTheInvariant : Obligations.ResetMeetsTheInvariant where
  mem := Memory.wf_nil
  pc := by decide
  stack := fun _ hw => absurd hw List.not_mem_nil
  history := Nat.zero_le _

/-- The reset state meets the invariant where the program fits: font and program lie in memory (70_reset_and_hazards.md
R230, R231). -/
theorem Inv.of_resetState {m : Mode} {fo : Font} {p : List Byte} (s : State) (hp : p.length ≤ 3584) :
    Inv (resetState m fo p s) where
  mem := by
    have hfont : (Memory.load [] Config.fontBase fo.toList).wf :=
      Memory.load_wf _ Memory.wf_nil (by rw [Vector.length_toList]; decide)
    exact Memory.load_wf p hfont (by simp only [Config.progBase]; omega)
  pc := resetMeetsTheInvariant.pc
  stack := resetMeetsTheInvariant.stack
  history := resetMeetsTheInvariant.history

/-- Every transaction that completes keeps the invariant. -/
theorem Inv.after_perform {op : HostOp} (hi : Inv s) (h : perform op s = .next t) : Inv t := by
  cases op with
  | tick ks => exact hi.after_tick h
  | decTimers => cases h; exact hi.after_decTimers
  | reset m fo p => obtain ⟨hp, rfl⟩ := performReset_eq_next h; exact Inv.of_resetState s hp

theorem Inv.after_nextOp (hi : Inv s) : Inv (nextOp s).2 := by
  rcases nextOp_cases s with ⟨_, _, -, h⟩ | ⟨-, h⟩ <;> rw [h] <;> exact hi.congr rfl rfl rfl rfl

/-- Settles O60: every transaction keeps the invariant, and a step performs one. -/
theorem stepKeepsTheInvariant : Obligations.StepKeepsTheInvariant :=
  fun _ _ hi h => hi.after_nextOp.after_perform h

end Sys2Proof.Machine
end

section
/-! What no instruction reads but its readers: the mode, the sound timer, the history and the key vector. One rewriting of
these four fields is carried through every instruction. -/

namespace Sys2Proof.Machine

/-- A rewriting of the fields that few instructions read. -/
structure Rewriting where
  mode : Mode → Mode := id
  sound : Byte → Byte := id
  history : List Instr → List Instr := id
  keys : Keys → Keys := id

/-- The state with those fields rewritten. -/
def State.rewrite (g : Rewriting) (s : State) : State :=
  { s with mode := g.mode s.mode, st := g.sound s.st, history := g.history s.history, keys := g.keys s.keys }

variable (g : Rewriting) (s : State) {i : Instr}

theorem mapNext_complete {α : Type} (f : State → State) (r : Except Fault α) (k : α → State) :
    mapNext f (complete r k) = complete r fun a => f (k a) := by
  cases r <;> rfl

theorem State.skipIf_rewrite (c : Bool) : (s.rewrite g).skipIf c = (s.skipIf c).rewrite g := by
  cases c <;> rfl

theorem State.keys_rewrite (h : g.keys = id) : (s.rewrite g).keys = s.keys := congrFun h s.keys

theorem State.shiftSource_rewrite (h : g.mode = id) (x y : Reg) :
    (s.rewrite g).shiftSource x y = s.shiftSource x y := by
  simp only [State.shiftSource, State.rewrite, h, id]
  rfl

theorem State.indexAfterBlock_rewrite (h : g.mode = id) (x : Reg) :
    (s.rewrite g).indexAfterBlock x = s.indexAfterBlock x := by
  simp only [State.indexAfterBlock, State.rewrite, h, id]

/-- Every instruction carries a rewriting through unchanged, where the rewriting leaves alone what the instruction reads of
the mode and the keys, and the sound timer where the instruction sets it. The instructions closed by `rfl` meet none of the
rewritten fields. -/
theorem exec_rewrite (hm : readsMode i = true → g.mode = id) (hs : ∀ x, i = .ldStVx x → g.sound = id)
    (hk : ∀ x, i = .skp x ∨ i = .sknp x ∨ i = .waitKey x → g.keys = id) :
    exec i (s.rewrite g) = mapNext (State.rewrite g) (exec i s) := by
  cases i
  case seImm | sneImm | seReg | sneReg => exact congrArg Host.Outcome.next (s.skipIf_rewrite g _)
  case skp x =>
    simp only [exec, execSkp, s.keys_rewrite g (hk x (by simp)), State.skipIf_rewrite, mapNext_complete]
    rfl
  case sknp x =>
    simp only [exec, execSknp, s.keys_rewrite g (hk x (by simp)), State.skipIf_rewrite, mapNext_complete]
    rfl
  case waitKey x =>
    simp only [exec, execWaitKey, s.keys_rewrite g (hk x (by simp))]
    cases lowestPressed s.keys <;> rfl
  case ret =>
    have hstack : (s.rewrite g).stack = s.stack := rfl
    simp only [exec, execRet, hstack]
    cases s.stack <;> rfl
  case addI x =>
    have hindex : (s.rewrite g).i + (s.rewrite g).wideReg x = s.i + s.wideReg x := rfl
    simp only [exec, execAddI, hindex]
    split <;> rfl
  case rnd x nn =>
    simp only [exec, execRnd]
    split <;> rfl
  case ldStVx x =>
    have hsound : g.sound (s.reg x) = s.reg x := congrFun (hs x rfl) _
    simp only [exec, execLdStVx, mapNext, State.rewrite, State.setSt, hsound]
    rfl
  case shr | shl =>
    simp only [exec, execShr, execShl, s.shiftSource_rewrite g (hm rfl)]
    rfl
  case storeRegs | loadRegs =>
    simp only [exec, execStoreRegs, execLoadRegs, s.indexAfterBlock_rewrite g (hm rfl), mapNext_complete]
    rfl
  case bcd | drw =>
    simp only [exec, execBcd, execDrw, mapNext_complete]
    rfl
  all_goals rfl

/-- Settles O55: the rewriting of the mode alone. -/
theorem modeMattersToFourInstructionsOnly : Obligations.ModeMattersToFourInstructionsOnly :=
  fun _ s m h => exec_rewrite { mode := fun _ => m } s (by simp [h]) (fun _ _ => rfl) (fun _ _ => rfl)

/-- Settles O56: the rewriting of the sound timer alone, and of the history alone. -/
theorem soundTimerAndHistoryAreNeverRead : Obligations.SoundTimerAndHistoryAreNeverRead :=
  fun _ s b h => ⟨
    fun hi => exec_rewrite { sound := fun _ => b } s (fun _ => rfl) (fun x hx => absurd hx (hi x)) (fun _ _ => rfl),
    exec_rewrite { history := fun _ => h } s (fun _ => rfl) (fun _ _ => rfl) (fun _ _ => rfl)⟩

/-- Settles O57: the rewriting of the keys alone. -/
theorem keysMatterToThreeInstructionsOnly : Obligations.KeysMatterToThreeInstructionsOnly :=
  fun _ s ks h1 h2 h3 => exec_rewrite { keys := fun _ => ks } s (fun _ => rfl) (fun _ _ => rfl)
    fun x hx => absurd hx (by simp [h1 x, h2 x, h3 x])

end Sys2Proof.Machine
end

section
/-! Memory as its accesses show it: a byte read after a byte write, and the block that FX55 stores as the fetch reads it
(20_memory.md R51, R57, R60). -/

namespace Sys2Proof.Machine

/-! ## A byte read after a byte write (20_memory.md R51, R57) -/

theorem readByte_set_self (m : Memory) {a : Word} (b : Byte) (h : a.toNat < 0x1000) :
    readByte (m.set a.toNat b) a = .ok b := by
  rw [readByte_eq_ok h, Memory.byteAt_set_self]

theorem readByte_set_of_ne (m : Memory) {a c : Word} (b : Byte) (h : c ≠ a) :
    readByte (m.set a.toNat b) c = readByte m c := by
  rcases Nat.lt_or_ge c.toNat 0x1000 with hc | hc
  · rw [readByte_eq_ok hc, readByte_eq_ok hc, Memory.byteAt_set_of_ne m b (mt BitVec.eq_of_toNat_eq h)]
  · rw [readByte_eq_error hc, readByte_eq_error hc]

/-- Settles O39, from the read of the written address and of every other. -/
theorem byteReadGivesTheLastWrite : Obligations.ByteReadGivesTheLastWrite :=
  fun m a b => ⟨
    fun h => ⟨m.set a.toNat b, writeByte_eq_ok b h, readByte_set_self m b h, fun _ hc => readByte_set_of_ne m b hc⟩,
    fun h => ⟨writeByte_eq_error b h, readByte_eq_error h⟩⟩

/-! ## The block that FX55 stores (44_memory_transfer.md R150) -/

/-- FX55 with its block in range completes, with the block write as its memory. -/
theorem exec_storeRegs_of_fits {s : State} {x : Reg} (h : s.i.toNat + x.val < 0x1000) :
    exec (.storeRegs x) s =
      .next ((s.setMem (s.mem.load s.i.toNat (s.lowRegs x))).setI (s.indexAfterBlock x)) := by
  have hw : writeBytes s.mem s.i (s.lowRegs x) = .ok (s.mem.load s.i.toNat (s.lowRegs x)) :=
    writeBytes_eq_ok _ _ _ (.inr (by rw [State.lowRegs_length]; omega))
  rw [exec, execStoreRegs, hw, complete_ok]

/-- A stored block holds `V[k]` at `k` past its start. -/
theorem byteAt_load_lowRegs (s : State) (m : Memory) (a : Nat) {x k : Reg} (h : k ≤ x) :
    (m.load a (s.lowRegs x)).byteAt (a + k.val) = s.reg k := by
  have hk : k.val < (s.lowRegs x).length := by rw [State.lowRegs_length]; exact Nat.lt_succ_of_le h
  rw [Memory.byteAt_load, if_pos ⟨by omega, by omega⟩, Nat.add_sub_cancel_left, List.getD_eq_getElem _ _ hk,
    State.lowRegs_getElem s x k.val hk k.isLt]

/-- Settles O43: the fetch reads the stored bytes of `V[k]` and `V[k + 1]`, at consecutive addresses. -/
theorem storedWordIsSeenByTheNextFetch : Obligations.StoredWordIsSeenByTheNextFetch := by
  intro x k s hkx hx
  refine ⟨_, exec_storeRegs_of_fits hx, ?_⟩
  have hnext : (k + 1).val = k.val + 1 := Fin.val_add_one_of_lt (hkx.trans_le (Fin.le_last x))
  have haddr : (s.i + BitVec.ofNat 16 k.val).toNat = s.i.toNat + k.val := by
    rw [BitVec.toNat_add, BitVec.toNat_ofNat]; omega
  have hfits : (s.i + BitVec.ofNat 16 k.val).toNat + 1 < 0x1000 := by
    have : k.val < x.val := hkx
    omega
  have hhi := byteAt_load_lowRegs s s.mem s.i.toNat hkx.le
  have hlo := byteAt_load_lowRegs s s.mem s.i.toNat (k := k + 1) (Fin.add_one_le_of_lt hkx)
  rw [hnext, ← Nat.add_assoc] at hlo
  rw [State.setI_mem, State.setMem_mem, readWord_eq_ok hfits, haddr, hhi, hlo, wordOfBytes]

end Sys2Proof.Machine
end

section
/-! The encoder, the decoder and the opcode map against one another (30_encoding.md R70 to R85). -/

namespace Sys2Proof

/-! ## A word is determined by its fields (R71, R72) -/

theorem wordNNN_eq_iff {t : BitVec 4} {nnn : Addr12} {w : Word} :
    wordNNN t nnn = w ↔ t = fieldT w ∧ nnn = fieldNNN w := by
  constructor
  · rintro rfl; simp
  · rintro ⟨rfl, rfl⟩; exact wordNNN_fields w

theorem wordXNN_eq_iff {t : BitVec 4} {x : Reg} {nn : Byte} {w : Word} :
    wordXNN t x nn = w ↔ t = fieldT w ∧ x = fieldX w ∧ nn = fieldNN w := by
  constructor
  · rintro rfl; simp
  · rintro ⟨rfl, rfl, rfl⟩; exact wordXNN_fields w

theorem wordXYN_eq_iff {t : BitVec 4} {x y : Reg} {n : Nibble} {w : Word} :
    wordXYN t x y n = w ↔ t = fieldT w ∧ x = fieldX w ∧ y = fieldY w ∧ n = fieldN w := by
  constructor
  · rintro rfl; simp
  · rintro ⟨rfl, rfl, rfl, rfl⟩; exact wordXYN_fields w

theorem fieldT_toNat (w : Word) : (fieldT w).toNat = w.toNat / 0x1000 := by
  simp only [fieldT, BitVec.extractLsb'_toNat, Nat.shiftRight_eq_div_pow]; omega

theorem fieldN_toNat (w : Word) : (fieldN w).toNat = w.toNat % 0x10 := by
  simp [fieldN, BitVec.extractLsb'_toNat]

theorem fieldNN_toNat (w : Word) : (fieldNN w).toNat = w.toNat % 0x100 := by
  simp [fieldNN, BitVec.extractLsb'_toNat]

/-! ## A word under a mask keeps some fields and clears the others (R83) -/

theorem fieldT_and (v w : Word) : fieldT (v &&& w) = fieldT v &&& fieldT w := BitVec.extractLsb'_and

theorem fieldX_and (v w : Word) : fieldX (v &&& w) = fieldX v &&& fieldX w := by
  simp only [fieldX, BitVec.extractLsb'_and, BitVec.toFin_and]

theorem fieldY_and (v w : Word) : fieldY (v &&& w) = fieldY v &&& fieldY w := by
  simp only [fieldY, BitVec.extractLsb'_and, BitVec.toFin_and]

theorem fieldN_and (v w : Word) : fieldN (v &&& w) = fieldN v &&& fieldN w := BitVec.extractLsb'_and

theorem fieldNN_and (v w : Word) : fieldNN (v &&& w) = fieldNN v &&& fieldNN w := BitVec.extractLsb'_and

theorem reg_and_zero (x : Reg) : x &&& 0 = 0 := by revert x; decide

theorem reg_and_ones (x : Reg) : x &&& 15 = x := by revert x; decide

/-- The mask that clears `N`, the nibble groups 0x5 and 0x9 ignore (R79). -/
theorem and_mask_TXY (w : Word) : w &&& 0xFFF0 = wordXYN (fieldT w) (fieldX w) (fieldY w) 0 := by
  refine (wordXYN_eq_iff.mpr ?_).symm
  rw [fieldT_and, fieldX_and, fieldY_and, fieldN_and]
  exact ⟨BitVec.and_allOnes.symm, (reg_and_ones _).symm, (reg_and_ones _).symm, BitVec.and_zero.symm⟩

/-- The mask of the rows of group 0x8. -/
theorem and_mask_TN (w : Word) : w &&& 0xF00F = wordXYN (fieldT w) 0 0 (fieldN w) := by
  refine (wordXYN_eq_iff.mpr ?_).symm
  rw [fieldT_and, fieldX_and, fieldY_and, fieldN_and]
  exact ⟨BitVec.and_allOnes.symm, (reg_and_zero _).symm, (reg_and_zero _).symm, BitVec.and_allOnes.symm⟩

/-- The mask of the rows of groups 0xE and 0xF. -/
theorem and_mask_TNN (w : Word) : w &&& 0xF0FF = wordXNN (fieldT w) 0 (fieldNN w) := by
  refine (wordXNN_eq_iff.mpr ?_).symm
  rw [fieldT_and, fieldX_and, fieldNN_and]
  exact ⟨BitVec.and_allOnes.symm, (reg_and_zero _).symm, BitVec.and_allOnes.symm⟩

/-- The mask of the rows with no second dispatch. -/
theorem and_mask_T (w : Word) : w &&& 0xF000 = wordNNN (fieldT w) 0 := by
  rw [← Laws.wordNNN_mask_top (fieldT w) (fieldNNN w), wordNNN_fields]

/-! ## Encoding what a word decodes to (R79, R83) -/

theorem encode_decodeGroup0 {w : Word} (hT : fieldT w = 0x0) : encode (decodeGroup0 w) = w := by
  unfold decodeGroup0
  split
  · next h => rw [h]; rfl
  split
  · next h => rw [h]; rfl
  · exact wordNNN_eq_iff.mpr ⟨hT.symm, rfl⟩

theorem encode_decodeGroup8 {w : Word} (hT : fieldT w = 0x8) : encode (decodeGroup8 w) = w := by
  unfold decodeGroup8
  split
  case h_10 => rfl
  all_goals next hN => exact wordXYN_eq_iff.mpr ⟨hT.symm, rfl, rfl, hN.symm⟩

theorem encode_decodeGroupE {w : Word} (hT : fieldT w = 0xE) : encode (decodeGroupE w) = w := by
  unfold decodeGroupE
  split
  case h_3 => rfl
  all_goals next hNN => exact wordXNN_eq_iff.mpr ⟨hT.symm, rfl, hNN.symm⟩

theorem encode_decodeGroupF {w : Word} (hT : fieldT w = 0xF) : encode (decodeGroupF w) = w := by
  unfold decodeGroupF
  split
  case h_10 => rfl
  all_goals next hNN => exact wordXNN_eq_iff.mpr ⟨hT.symm, rfl, hNN.symm⟩

theorem encode_decode (w : Word) :
    encode (decode w) = if fieldT w = 0x5 ∨ fieldT w = 0x9 then w &&& 0xFFF0 else w := by
  unfold decode
  split
  case h_1 hT => rw [encode_decodeGroup0 hT, hT]; rfl
  case h_6 hT => rw [and_mask_TXY, hT]; rfl
  case h_9 hT => rw [encode_decodeGroup8 hT, hT]; rfl
  case h_10 hT => rw [and_mask_TXY, hT]; rfl
  case h_14 hT => rw [encode_decodeGroupE hT, hT]; rfl
  case h_15 hT => rw [encode_decodeGroupF hT, hT]; rfl
  case h_16 => simp_all [encode]
  all_goals next hT => simp [hT, encode, wordNNN_eq_iff, wordXNN_eq_iff, wordXYN_eq_iff]

/-- Settles O2, by the groups of the decoder. -/
theorem encodeOfDecodeIsTheCanonicalWord : Obligations.EncodeOfDecodeIsTheCanonicalWord :=
  encode_decode

/-- A word that decodes to an instruction other than 5XY0 and 9XY0 is the word of that instruction. -/
theorem encode_eq_of_decode_eq {w : Word} {i : Instr} (h : decode w = i) (h5 : i.row ≠ 6) (h9 : i.row ≠ 7) :
    encode i = w := by
  subst h
  rw [encode_decode, if_neg]
  rintro (hT | hT)
  · exact h5 (by rw [decode, hT]; rfl)
  · exact h9 (by rw [decode, hT]; rfl)

/-! ## The unrecognized words (R80) -/

theorem decodeGroup0_ne_unrecognized (v w : Word) : decodeGroup0 v ≠ .unrecognized w := by
  unfold decodeGroup0
  split
  · simp
  split <;> simp

theorem decodeGroup8_eq_unrecognized_iff (w : Word) :
    decodeGroup8 w = .unrecognized w ↔ fieldN w ∈ [0x8, 0x9, 0xA, 0xB, 0xC, 0xD, 0xF] := by
  unfold decodeGroup8
  split
  case h_10 =>
    rw [eq_self, true_iff]
    generalize fieldN w = n at *
    revert n
    decide
  all_goals next hN => simp [hN]

theorem decodeGroupE_eq_unrecognized_iff (w : Word) :
    decodeGroupE w = .unrecognized w ↔ fieldNN w ∉ [0x9E, 0xA1] := by
  unfold decodeGroupE
  split
  case h_3 => simp_all
  all_goals next hNN => simp [hNN]

theorem decodeGroupF_eq_unrecognized_iff (w : Word) :
    decodeGroupF w = .unrecognized w ↔ fieldNN w ∉ [0x07, 0x0A, 0x15, 0x18, 0x1E, 0x29, 0x33, 0x55, 0x65] := by
  unfold decodeGroupF
  split
  case h_10 => simp_all
  all_goals next hNN => simp [hNN]

/-- The one top nibble to which the decoder gives no group. -/
theorem topNibble_eq_B : ∀ t : BitVec 4,
    t ∉ [0x0, 0x1, 0x2, 0x3, 0x4, 0x5, 0x6, 0x7, 0x8, 0x9, 0xA, 0xC, 0xD, 0xE, 0xF] → t = 0xB := by decide

theorem decode_eq_unrecognized_iff_group (w : Word) : decode w = .unrecognized w ↔
    fieldT w = 0xB ∨ (fieldT w = 0x8 ∧ decodeGroup8 w = .unrecognized w) ∨
    (fieldT w = 0xE ∧ decodeGroupE w = .unrecognized w) ∨ (fieldT w = 0xF ∧ decodeGroupF w = .unrecognized w) := by
  unfold decode
  split
  case h_16 =>
    have hB : fieldT w = 0xB := topNibble_eq_B _ (by simp_all)
    simp [hB]
  all_goals next hT => simp [hT, decodeGroup0_ne_unrecognized]

theorem unrecognizedWord_eq_true_iff (w : Word) : unrecognizedWord w = true ↔
    fieldT w = 0xB ∨ (fieldT w = 0x8 ∧ fieldN w ∈ [0x8, 0x9, 0xA, 0xB, 0xC, 0xD, 0xF]) ∨
    (fieldT w = 0xE ∧ fieldNN w ∉ [0x9E, 0xA1]) ∨
    (fieldT w = 0xF ∧ fieldNN w ∉ [0x07, 0x0A, 0x15, 0x18, 0x1E, 0x29, 0x33, 0x55, 0x65]) := by
  simp [unrecognizedWord, ← BitVec.toNat_inj, fieldT_toNat, fieldN_toNat, fieldNN_toNat, or_assoc]

theorem decode_eq_unrecognized_iff (w : Word) : decode w = .unrecognized w ↔ unrecognizedWord w = true := by
  rw [decode_eq_unrecognized_iff_group, decodeGroup8_eq_unrecognized_iff, decodeGroupE_eq_unrecognized_iff,
    decodeGroupF_eq_unrecognized_iff, unrecognizedWord_eq_true_iff]

/-- Settles O6, from the dispatch of the decoder. -/
theorem unrecognizedWordsAreThoseOfTheTable : Obligations.UnrecognizedWordsAreThoseOfTheTable := by
  intro w
  rw [decode_eq_unrecognized_iff]
  simp [unrecognizedWord, or_assoc]

/-! ## Well-formedness (R75, R80, R81) -/

/-- Settles O3: the word of a SYS or of an unrecognized verdict is known, and so is what that word decodes to. -/
theorem decodedInstructionIsWellFormed : Obligations.DecodedInstructionIsWellFormed := by
  intro w
  cases h : decode w with
  | sys nnn =>
    have hw : wordNNN 0x0 nnn = w := encode_eq_of_decode_eq h nofun nofun
    subst hw
    suffices nnn ≠ 0x0E0 ∧ nnn ≠ 0x0EE by simpa [Instr.wellFormed]
    constructor <;> rintro rfl <;> cases h
  | unrecognized v =>
    have hv : v = w := encode_eq_of_decode_eq h nofun nofun
    subst hv
    exact (decode_eq_unrecognized_iff v).mp h
  | _ => rfl

/-! ## Decoding what the encoder gives (R81, R83) -/

theorem decode_sys {nnn : Addr12} (h0 : nnn ≠ 0x0E0) (hE : nnn ≠ 0x0EE) : decode (wordNNN 0x0 nnn) = .sys nnn := by
  have hw0 : wordNNN 0x0 nnn ≠ 0x00E0 := fun hw => h0 (wordNNN_eq_iff.mp hw).2
  have hwE : wordNNN 0x0 nnn ≠ 0x00EE := fun hw => hE (wordNNN_eq_iff.mp hw).2
  calc decode (wordNNN 0x0 nnn)
      = decodeGroup0 (wordNNN 0x0 nnn) := by rw [decode, fieldT_wordNNN]; rfl
    _ = .sys nnn := by rw [decodeGroup0, if_neg hw0, if_neg hwE, fieldNNN_wordNNN]

theorem decode_encode {i : Instr} (h : i.wellFormed = true) : decode (encode i) = i := by
  cases i with
  | sys nnn =>
    obtain ⟨h0, hE⟩ : nnn ≠ 0x0E0 ∧ nnn ≠ 0x0EE := by simpa [Instr.wellFormed] using h
    exact decode_sys h0 hE
  | unrecognized w => exact (decode_eq_unrecognized_iff w).mpr h
  | cls => rfl
  | ret => rfl
  | _ => simp [encode, decode, decodeGroup8, decodeGroupE, decodeGroupF]

theorem decodeBytes_encodeBytes_append (i : Instr) (rest : List Byte) :
    decodeBytes (encodeBytes i ++ rest) = .ok (decode (encode i), rest) := by
  simp [encodeBytes, decodeBytes]

/-- Settles O1: the two bytes make up the encoded word, and that word decodes to the instruction. -/
theorem decodeOfEncodedBytesGivesTheInstruction : Obligations.DecodeOfEncodedBytesGivesTheInstruction := by
  intro i rest h
  rw [decodeBytes_encodeBytes_append, decode_encode h]

/-! ## The opcode map (R83, R85) -/

/-- Two masks and matches that a word can meet at once agree on the bits both masks keep. -/
theorem OpcodeRow.pattern_and_mask_comm {r q : OpcodeRow} {w : Word} (hr : r.selects w = true) (hq : q.selects w = true) :
    r.pattern &&& q.mask = q.pattern &&& r.mask := by
  rw [← beq_iff_eq.mp hr, ← beq_iff_eq.mp hq, BitVec.and_assoc, BitVec.and_assoc, BitVec.and_comm r.mask]

theorem opcodeMap_disagree : ∀ r ∈ opcodeMap, ∀ q ∈ opcodeMap, r.priority = q.priority → r ≠ q →
    r.pattern &&& q.mask ≠ q.pattern &&& r.mask := by decide

/-- Settles O5: two such rows disagree on a bit that both masks keep. -/
theorem rowsOfEqualPriorityShareNoWord : Obligations.RowsOfEqualPriorityShareNoWord :=
  fun r hr q hq hp hne _ ⟨hrw, hqw⟩ => opcodeMap_disagree r hr q hq hp hne (OpcodeRow.pattern_and_mask_comm hrw hqw)

/-- The rows of the map that a word of top nibble `t` can select (R74). -/
def rowsOfGroup (t : BitVec 4) : List OpcodeRow :=
  opcodeMap.filter fun r => t &&& fieldT r.mask == fieldT r.pattern

theorem selectedRow_eq_rowsOfGroup (w : Word) :
    selectedRow w = ((rowsOfGroup (fieldT w)).find? fun r => r.selects w).map OpcodeRow.row := by
  rw [selectedRow, rowsOfGroup, List.find?_filter]
  congr 1
  refine List.find?_congr fun r _ => Bool.eq_iff_iff.mpr ?_
  rw [decide_eq_true_iff]
  refine ⟨fun h => ⟨?_, h⟩, And.right⟩
  rw [beq_iff_eq, ← fieldT_and, beq_iff_eq.mp h]

theorem selectedRow_of_head {r : OpcodeRow} {w : Word} (h : (rowsOfGroup (fieldT w)).head? = some r)
    (hr : r.selects w = true) : selectedRow w = some r.row := by
  obtain ⟨rest, hrows⟩ := List.head?_eq_some_iff.mp h
  rw [selectedRow_eq_rowsOfGroup, hrows, List.find?_cons_of_pos (p := (OpcodeRow.selects · w)) hr, Option.map_some]

theorem catchAll_selects (w : Word) : (⟨35, 9, 0x0000, 0x0000⟩ : OpcodeRow).selects w = true := by
  rw [OpcodeRow.selects, beq_iff_eq]
  exact BitVec.and_zero

/-- A row whose mask keeps `T` alone selects the words of its top nibble. -/
theorem selects_of_fieldT {k p : Nat} {t : BitVec 4} {w : Word} (hT : fieldT w = t) :
    (⟨k, p, 0xF000, wordNNN t 0⟩ : OpcodeRow).selects w = true := by
  rw [OpcodeRow.selects, and_mask_T, hT, BEq.rfl]

/-- A group without a second dispatch has its instruction's row at its head. -/
theorem selectedRow_of_fieldT {k p : Nat} {t : BitVec 4} {w : Word} (hT : fieldT w = t)
    (h : (rowsOfGroup t).head? = some ⟨k, p, 0xF000, wordNNN t 0⟩) : selectedRow w = some k :=
  selectedRow_of_head (by rw [hT, h]) (selects_of_fieldT hT)

/-- A row whose mask keeps the whole word is passed over by every other word. -/
theorem find?_selects_cons_of_ne {k p : Nat} {v w : Word} {rest : List OpcodeRow} (h : w ≠ v) :
    (⟨k, p, 0xFFFF, v⟩ :: rest).find? (OpcodeRow.selects · w) = rest.find? (OpcodeRow.selects · w) :=
  List.find?_cons_of_neg fun hw => h (BitVec.and_allOnes.symm.trans (beq_iff_eq.mp hw))

theorem selectedRow_group0 {w : Word} (hT : fieldT w = 0x0) : selectedRow w = some (decodeGroup0 w).row := by
  unfold decodeGroup0
  split
  · next h => rw [h]; rfl
  split
  · next h => rw [h]; rfl
  · next h0 hE =>
    have hrows : rowsOfGroup 0x0 = ⟨3, 1, 0xFFFF, 0x00EE⟩ :: ⟨27, 1, 0xFFFF, 0x00E0⟩ ::
        ⟨8, 2, 0xF000, wordNNN 0x0 0⟩ :: [⟨35, 9, 0x0000, 0x0000⟩] := by decide
    rw [selectedRow_eq_rowsOfGroup, hT, hrows, find?_selects_cons_of_ne hE,
      find?_selects_cons_of_ne h0, List.find?_cons_of_pos (p := (OpcodeRow.selects · w)) (selects_of_fieldT hT)]
    rfl

/-- The row a table gives a sub-opcode, or the catch-all. -/
def lookupRow {m : Nat} (table : List (Nat × BitVec m)) (a : BitVec m) : Nat :=
  ((table.find? fun e => a == e.2).map Prod.fst).getD 35

/-- A group whose rows ask for a sub-opcode: the walk over its rows looks the sub-opcode up. -/
theorem selectedRow_eq_lookupRow {m : Nat} {table : List (Nat × BitVec m)} {mask : Word} {word : BitVec m → Word}
    {a : BitVec m} {w : Word}
    (hrows : rowsOfGroup (fieldT w) = table.map (fun e => ⟨e.1, 1, mask, word e.2⟩) ++ [⟨35, 9, 0x0000, 0x0000⟩])
    (hsel : ∀ b, w &&& mask = word b ↔ a = b) : selectedRow w = some (lookupRow table a) := by
  have hfind : (fun r : OpcodeRow => r.selects w) ∘ (fun e : Nat × BitVec m => ⟨e.1, 1, mask, word e.2⟩) =
      fun e => a == e.2 := by
    funext e
    rw [Bool.eq_iff_iff, beq_iff_eq, ← hsel]
    exact beq_iff_eq
  rw [selectedRow_eq_rowsOfGroup, hrows, List.find?_append, List.find?_map, hfind, lookupRow,
    List.find?_cons_of_pos (p := (OpcodeRow.selects · w)) (catchAll_selects w)]
  cases table.find? fun e => a == e.2 <;> rfl

theorem row_decodeGroup8 (w : Word) : (decodeGroup8 w).row = lookupRow
    [(11, 0x0), (12, 0x1), (13, 0x2), (14, 0x3), (15, 0x4), (16, 0x5), (17, 0x6), (18, 0x7), (19, 0xE)] (fieldN w) := by
  unfold decodeGroup8
  split
  case h_10 => simp_all [lookupRow, Instr.row]
  all_goals next hN => rw [hN]; rfl

theorem row_decodeGroupE (w : Word) : (decodeGroupE w).row = lookupRow [(32, 0x9E), (33, 0xA1)] (fieldNN w) := by
  unfold decodeGroupE
  split
  case h_3 => simp_all [lookupRow, Instr.row]
  all_goals next hNN => rw [hNN]; rfl

theorem row_decodeGroupF (w : Word) : (decodeGroupF w).row = lookupRow
    [(21, 0x1E), (22, 0x29), (23, 0x55), (24, 0x65), (25, 0x33), (29, 0x07), (30, 0x15), (31, 0x18), (34, 0x0A)]
    (fieldNN w) := by
  unfold decodeGroupF
  split
  case h_10 => simp_all [lookupRow, Instr.row]
  all_goals next hNN => rw [hNN]; rfl

theorem selectedRow_group8 {w : Word} (hT : fieldT w = 0x8) : selectedRow w = some (decodeGroup8 w).row := by
  rw [row_decodeGroup8]
  refine selectedRow_eq_lookupRow (mask := 0xF00F) (word := wordXYN 0x8 0 0) (by rw [hT]; decide) fun n => ?_
  rw [and_mask_TN, hT, wordXYN_eq_iff]
  simp

theorem and_mask_TNN_eq_iff {t : BitVec 4} {w : Word} (hT : fieldT w = t) (nn : Byte) :
    w &&& 0xF0FF = wordXNN t 0 nn ↔ fieldNN w = nn := by
  rw [and_mask_TNN, hT, wordXNN_eq_iff]
  simp

theorem selectedRow_groupE {w : Word} (hT : fieldT w = 0xE) : selectedRow w = some (decodeGroupE w).row := by
  rw [row_decodeGroupE]
  exact selectedRow_eq_lookupRow (by rw [hT]; decide) (and_mask_TNN_eq_iff hT)

theorem selectedRow_groupF {w : Word} (hT : fieldT w = 0xF) : selectedRow w = some (decodeGroupF w).row := by
  rw [row_decodeGroupF]
  exact selectedRow_eq_lookupRow (by rw [hT]; decide) (and_mask_TNN_eq_iff hT)

theorem selectedRow_decode (w : Word) : selectedRow w = some (decode w).row := by
  unfold decode
  split
  case h_1 hT => exact selectedRow_group0 hT
  case h_9 hT => exact selectedRow_group8 hT
  case h_14 hT => exact selectedRow_groupE hT
  case h_15 hT => exact selectedRow_groupF hT
  case h_16 =>
    have hB : fieldT w = 0xB := topNibble_eq_B _ (by simp_all)
    exact selectedRow_of_head (by rw [hB]; rfl) (catchAll_selects w)
  all_goals next hT => exact selectedRow_of_fieldT (p := 1) hT rfl

/-- Settles O4, by the groups of the decoder. -/
theorem decoderTakesTheFirstSelectedRow : Obligations.DecoderTakesTheFirstSelectedRow :=
  selectedRow_decode

/-- Settles O7, by running the decoder on the fifteen words. -/
theorem sampleWordsDecodeAsListed : Obligations.SampleWordsDecodeAsListed := by
  unfold Obligations.SampleWordsDecodeAsListed
  decide

end Sys2Proof
end

section
/-! The tick cycle (40_tick_cycle.md): a step of a running core that ticks, said once for a fetch that answers and once for
one that faults, and what the host's probe places. -/

namespace Sys2Proof.Machine

variable {s : State} {ks : Keys} {rest : List HostOp} {w : Word}

/-! ## A step that ticks (R91 to R95) -/

@[simp] theorem recordAfter_next (i : Instr) (t : State) : recordAfter i (.next t) = .next (t.record i) := rfl

@[simp] theorem recordAfter_fault (i : Instr) (f : Fault) : recordAfter i (.fault f) = .fault f := rfl

theorem step_of_tick (hs : s.status = .running) (hh : s.host = .tick ks :: rest) (hf : readWord s.mem s.pc = .ok w) :
    step s = recordAfter (decode w) (exec (decode w) { s with host := rest, keys := ks, pc := s.pc + 2 }) :=
  (step_of_host hh).trans (tick_of_fetch hs hf)

theorem step_of_tick_fetch_error {f : Fault} (hs : s.status = .running) (hh : s.host = .tick ks :: rest)
    (hf : readWord s.mem s.pc = .error f) : step s = .fault f :=
  (step_of_host hh).trans (tick_of_fetch_error hs hf)

/-- Settles O11: the step is `exec` of the decoded word and then its record. -/
theorem stepRunsTheDecodedInstruction : Obligations.StepRunsTheDecodedInstruction := by
  intro s ks rest w hs hh hf
  rw [step_of_tick hs hh hf]
  constructor
  · intro t ht
    rw [ht, recordAfter_next]
  · intro f hfault
    rw [hfault, recordAfter_fault]

/-- Settles O12: below 0x0FFF both byte reads are in range, from there on the fetch faults and the step with it. -/
theorem fetchReadsTheWordAtPcOrFaults : Obligations.FetchReadsTheWordAtPcOrFaults :=
  fun _ _ _ hs hh => ⟨fun hpc => readWord_eq_ok (Nat.lt_succ_of_le (Nat.succ_le_succ hpc)),
    fun hpc => step_of_tick_fetch_error hs hh (readWord_eq_error hpc)⟩

/-- Settles O15: past the host's list the free choice is `DecTimers` or a `Tick`. -/
theorem stepPerformsTheHostsNextTransaction : Obligations.StepPerformsTheHostsNextTransaction := by
  refine fun s => ⟨fun _ _ hh => step_of_host hh, fun hh => ?_⟩
  rw [step_of_no_host hh]
  rcases freeOp_cases s.fresh with hf | hf <;> rw [hf]
  · exact .inl rfl
  · exact .inr ⟨_, rfl⟩

/-! ## Two words whose whole step is known (R94, R98) -/

theorem exec_unrecognized (w : Word) (s : State) :
    exec (.unrecognized w) s = .next (s.emit (.unrecognizedOpcode w)) := rfl

/-- Settles O16: `exec` only emits the diagnostic, and the tick records nothing for an unrecognized word. -/
theorem unrecognizedWordIsLoggedAndSkipped : Obligations.UnrecognizedWordIsLoggedAndSkipped := by
  intro s w
  refine ⟨⟨_, exec_unrecognized w s, s.emit_diags _, (Keeps.emit rfl).toFrame⟩, fun ks rest hs hh hf hd => ?_⟩
  rw [step_of_tick hs hh hf, hd, exec_unrecognized, recordAfter_next]
  rfl

theorem exec_jp (nnn : Addr12) (s : State) : exec (.jp nnn) s = .next (s.setPc (addrOperand nnn)) := rfl

/-- A jump to the address it stands at takes back the advance of `PC` (R98, 41_control_flow.md R100). -/
theorem setPc_addrOperand_of_advanced {a : Addr12} (hpc : s.pc = a.zeroExtend 16) :
    ({ s with host := rest, keys := ks, pc := s.pc + 2 } : State).setPc (addrOperand a) =
      { s with host := rest, keys := ks } := by
  rw [addrOperand, ← hpc]
  rfl

/-- Settles O17: the jump restores `PC`, so only the entry in the history is left as a change. -/
theorem jumpToItselfChangesOnlyTheHistory : Obligations.JumpToItselfChangesOnlyTheHistory := by
  intro s ks rest a hs hh hpc hf
  have hd : decode (wordNNN 0x1 a) = .jp a := decode_encode (i := .jp a) rfl
  rw [step_of_tick hs hh hf, hd, exec_jp, setPc_addrOperand_of_advanced hpc, recordAfter_next]
  rfl

/-! ## The host's probe (log 8) -/

theorem fetchPlace_fits (pc : Word) : (fetchPlace pc).toNat + 1 < 0x1000 := by
  unfold fetchPlace
  split
  · next h => exact h
  · decide

theorem tickFirst_eq_tick_cons (ks : Keys) (ops : List HostOp) : ∃ ks' rest, tickFirst ks ops = .tick ks' :: rest := by
  unfold tickFirst
  split <;> exact ⟨_, _, rfl⟩

theorem withFetchWord_toNat (s : State) (w : Word) : s.withFetchWord 16 w.toNat = s.placeWord w := by
  rw [State.withFetchWord, Nat.mod_eq_of_lt w.isLt, BitVec.ofNat_toNat, BitVec.setWidth_eq]

/-- Two bytes written high byte first are the word the fetch reads (20_memory.md R52). -/
theorem readWord_set_set (m : Memory) {a : Word} (h : a.toNat + 1 < 0x1000) (w : Word) :
    readWord ((m.set a.toNat (hiByte w)).set (a.toNat + 1) (loByte w)) a = .ok w := by
  rw [readWord_eq_ok h, Memory.byteAt_set_self, Memory.byteAt_set_of_ne _ _ (Nat.ne_of_lt (Nat.lt_succ_self _)),
    Memory.byteAt_set_self, wordOfBytes_hiByte_loByte]

theorem readWord_placeWord (s : State) (w : Word) : readWord (s.placeWord w).mem (s.placeWord w).pc = .ok w :=
  readWord_set_set s.mem (fetchPlace_fits s.pc) w

/-- Settles O20: the probe's place fits a word, and its list begins with a tick. -/
theorem placedWordIsWhatTheNextStepRuns : Obligations.PlacedWordIsWhatTheNextStepRuns := by
  intro s w
  obtain ⟨ks, rest, hhost⟩ := tickFirst_eq_tick_cons s.keys s.host
  exact ⟨ks, rest, withFetchWord_toNat s w, hhost, rfl, readWord_placeWord s w⟩

end Sys2Proof.Machine
end

section
/-! Control flow (41_control_flow.md): jump, call and return as state equations, and the conditional skips by one lemma. -/

namespace Sys2Proof.Machine

variable {s : State}

/-! ## Jump, call and return (R100 to R102) -/

/-- Settles O24: the whole effect is one write of `PC`. -/
theorem jumpSetsPcToItsAddress : Obligations.JumpSetsPcToItsAddress :=
  fun nnn s => ⟨decode_encode (i := .jp nnn) rfl, _, exec_jp nnn s, s.setPc_pc _, (Keeps.setPc rfl).toFrame⟩

theorem exec_call (nnn : Addr12) (s : State) :
    exec (.call nnn) s = .next ((s.push s.pc).setPc (addrOperand nnn)) := rfl

/-- Settles O25: the call is a push of the advanced `PC` and then a jump. -/
theorem callPushesTheAdvancedPcAndJumps : Obligations.CallPushesTheAdvancedPcAndJumps :=
  fun nnn s => ⟨decode_encode (i := .call nnn) rfl, _, exec_call nnn s, s.push_stack s.pc, State.setPc_pc _ _,
    ((Keeps.push rfl).trans (Keeps.setPc rfl)).toFrame⟩

theorem exec_ret_of_cons {w : Word} {rest : List Word} (h : s.stack = w :: rest) :
    exec .ret s = .next ((s.setStack rest).setPc w) := by
  simp only [exec, execRet, h]

theorem exec_ret_of_nil (h : s.stack = []) : exec .ret s = .next (s.emit .stackUnderflow) := by
  simp only [exec, execRet, h]

/-- Settles O26, by the two cases of the stack. -/
theorem returnPopsOrReportsUnderflow : Obligations.ReturnPopsOrReportsUnderflow := by
  refine ⟨decode_encode (i := .ret) rfl, fun s => ⟨fun w rest h => ?_, fun h => ?_⟩⟩
  · exact ⟨_, exec_ret_of_cons h, State.setPc_pc _ w, s.setStack_stack rest,
      ((Keeps.setStack rfl).trans (Keeps.setPc rfl)).toFrame⟩
  · exact ⟨_, exec_ret_of_nil h, s.emit_diags _, (Keeps.emit rfl).toFrame⟩

/-- Settles O27: the return finds on the stack what the call pushed, and overwrites the jump and the advance of `PC`. -/
theorem returnAfterCallRestoresPc : Obligations.ReturnAfterCallRestoresPc := fun nnn s =>
  have hstack : ((s.push s.pc).setPc (addrOperand nnn)).advance.stack = s.pc :: s.stack := rfl
  ⟨_, _, exec_call nnn s, exec_ret_of_cons hstack, rfl⟩

/-! ## The conditional skips (R103 to R106, R108) -/

/-- What an instruction does whose whole effect is a skip on the test `p`. -/
theorem exec_skip {i : Instr} {b : Bool} {p : Prop} [Decidable p] (h : exec i s = .next (s.skipIf b))
    (hb : b = true ↔ p) :
    ∃ t, exec i s = .next t ∧ t.pc = (if p then s.pc + 2 else s.pc) ∧ Frame { pc := true } s t := by
  refine ⟨_, h, ?_, (Keeps.skipIf rfl).toFrame⟩
  rw [s.skipIf_eq, State.setPc_pc, if_congr hb rfl rfl]

/-- Settles O28: both forms are skips, on the equality test and on its negation. -/
theorem immediateSkipsAddTwoWhenTheirTestHolds : Obligations.ImmediateSkipsAddTwoWhenTheirTestHolds :=
  fun x nn _ => ⟨decode_encode (i := .seImm x nn) rfl, decode_encode (i := .sneImm x nn) rfl,
    exec_skip rfl beq_iff_eq, exec_skip rfl bne_iff_ne⟩

theorem decode_seReg (x y : Reg) (n : Nibble) : decode (wordXYN 0x5 x y n) = .seReg x y := by simp [decode]

theorem decode_sneReg (x y : Reg) (n : Nibble) : decode (wordXYN 0x9 x y n) = .sneReg x y := by simp [decode]

/-- Settles O29: the decoder's groups 0x5 and 0x9 do not read the low nibble. -/
theorem registerSkipsAddTwoWhenTheirTestHolds : Obligations.RegisterSkipsAddTwoWhenTheirTestHolds :=
  fun x y n _ => ⟨decode_seReg x y n, decode_sneReg x y n, exec_skip rfl beq_iff_eq, exec_skip rfl bne_iff_ne⟩

end Sys2Proof.Machine
end

section
/-! Register load, arithmetic, logic and shift (42_register_alu.md): the effect of an instruction that writes `V[X]` and of
one that writes `V[X]` and then `VF`, each by one lemma, and the exact values behind them. -/

namespace Sys2Proof.Machine

variable {s : State} {i : Instr} {x : Reg} {b : Byte} {f : Bool}

/-! ## Load, immediate add, copy, logic: one register and no flag (R120 to R125) -/

/-- What an instruction does whose whole effect is one write of `V[X]`. -/
theorem exec_setReg (h : exec i s = .next (s.setReg x b)) :
    ∃ t, exec i s = .next t ∧ t.reg x = b ∧ Frame { regs := [x] } s t :=
  ⟨_, h, s.reg_setReg_self x b, (Keeps.setReg List.mem_cons_self).toFrame⟩

theorem exec_addImm (x : Reg) (nn : Byte) (s : State) : exec (.addImm x nn) s = .next (s.setReg x (s.reg x + nn)) := rfl

/-- Settles O31: both forms are one write of `V[X]`; the sum wraps as the addition of bytes does. -/
theorem immediateLoadAndAddWriteOnlyVx : Obligations.ImmediateLoadAndAddWriteOnlyVx := by
  refine fun x nn s => ⟨decode_encode (i := .ldImm x nn) rfl, decode_encode (i := .addImm x nn) rfl, exec_setReg rfl, ?_⟩
  obtain ⟨t, ht, hx, hframe⟩ := exec_setReg (exec_addImm x nn s)
  exact ⟨t, ht, hx ▸ BitVec.toNat_add _ _, hframe⟩

/-- Settles O32: each form is one write of `V[X]`. -/
theorem copyAndLogicWriteOnlyVx : Obligations.CopyAndLogicWriteOnlyVx := fun x y _ =>
  ⟨decode_encode (i := .ldReg x y) rfl, decode_encode (i := .orReg x y) rfl, decode_encode (i := .andReg x y) rfl,
    decode_encode (i := .xorReg x y) rfl, exec_setReg rfl, exec_setReg rfl, exec_setReg rfl, exec_setReg rfl⟩

/-! ## The result, then the flag (R131) -/

/-- The flag is written last, so `VF` ends as the flag even where `X` is 15. -/
theorem State.setRegThenFlag_reg_vf (s : State) (x : Reg) (b : Byte) (f : Bool) :
    (s.setRegThenFlag x b f).reg vf = flagByte f :=
  (s.setReg x b).reg_setReg_self vf (flagByte f)

theorem State.setRegThenFlag_reg_of_ne (s : State) (b : Byte) (f : Bool) (hx : x ≠ vf) :
    (s.setRegThenFlag x b f).reg x = b :=
  ((s.setReg x b).reg_setReg_of_ne (flagByte f) hx).trans (s.reg_setReg_self x b)

/-- What an instruction does whose whole effect is a result in `V[X]` of value `n`, then a flag. -/
theorem exec_setRegThenFlag {n : Nat} (h : exec i s = .next (s.setRegThenFlag x b f)) (hn : b.toNat = n) :
    ∃ t, exec i s = .next t ∧ t.reg vf = flagByte f ∧ (x ≠ vf → (t.reg x).toNat = n) ∧
      Frame { regs := [x, vf] } s t := by
  refine ⟨_, h, s.setRegThenFlag_reg_vf x b f, fun hx => ?_,
    (Keeps.setRegThenFlag List.mem_cons_self (List.mem_cons_of_mem _ List.mem_cons_self)).toFrame⟩
  rw [s.setRegThenFlag_reg_of_ne b f hx, hn]

/-! ## Addition and subtraction (R126, R127, R129) -/

theorem flagByte_eq_ite {p : Prop} [Decidable p] (h : f = true ↔ p) : flagByte f = if p then 1 else 0 :=
  if_congr h rfl rfl

/-- Settles O33: the carry is the ninth bit of the exact sum. -/
theorem registerAddGivesSumAndCarry : Obligations.RegisterAddGivesSumAndCarry := fun x y s =>
  ⟨decode_encode (i := .addReg x y) rfl, by
    rw [← flagByte_eq_ite (addCarries_iff (s.reg x) (s.reg y))]
    exact exec_setRegThenFlag rfl (BitVec.toNat_add _ _)⟩

/-- The difference of two bytes, counted from 256 so that it stays a natural number. -/
theorem byte_sub_toNat (a b : Byte) : (a - b).toNat = (a.toNat + 256 - b.toNat) % 256 := by
  have := b.isLt
  rw [BitVec.toNat_sub]
  omega

/-- What an instruction does whose whole effect is a difference in `V[X]`, then the no-borrow flag. -/
theorem exec_subtraction {a b : Byte}
    (h : exec i s = .next (s.setRegThenFlag x (a - b) (subDoesNotBorrow a b))) :
    ∃ t, exec i s = .next t ∧ t.reg vf = (if b.toNat ≤ a.toNat then 1 else 0) ∧
      (x ≠ vf → (t.reg x).toNat = (a.toNat + 256 - b.toNat) % 256) ∧ Frame { regs := [x, vf] } s t := by
  rw [← flagByte_eq_ite (subDoesNotBorrow_iff a b)]
  exact exec_setRegThenFlag h (byte_sub_toNat a b)

/-- Settles O34: both forms are subtractions, in either order of the registers. -/
theorem subtractionsGiveDifferenceAndNoBorrow : Obligations.SubtractionsGiveDifferenceAndNoBorrow := fun x y _ =>
  ⟨decode_encode (i := .subReg x y) rfl, decode_encode (i := .subnReg x y) rfl,
    exec_subtraction rfl, exec_subtraction rfl⟩

/-! ## The shifts (R128, R130) -/

theorem State.shiftSource_eq_ite (s : State) (x y : Reg) :
    s.shiftSource x y = if s.mode = .classic then s.reg y else s.reg x := by
  cases hm : s.mode <;> simp [State.shiftSource, hm]

theorem flagByte_toNat (f : Bool) : (flagByte f).toNat = f.toNat := by
  cases f <;> rfl

theorem flagByte_shiftedOutLow_toNat (v : Byte) : (flagByte (shiftedOutLow v)).toNat = v.toNat % 2 := by
  rw [flagByte_toNat, shiftedOutLow, BitVec.getLsbD, Nat.toNat_testBit, Nat.pow_zero, Nat.div_one]

/-- Bit 7 of a byte is the quotient by 128, for there is no higher bit. -/
theorem flagByte_shiftedOutHigh_toNat (v : Byte) : (flagByte (shiftedOutHigh v)).toNat = v.toNat / 128 := by
  have := v.isLt
  rw [flagByte_toNat, shiftedOutHigh, BitVec.getLsbD, Nat.toNat_testBit]
  omega

theorem byte_shiftRight_one_toNat (v : Byte) : (v >>> 1).toNat = v.toNat / 2 := by
  rw [BitVec.toNat_ushiftRight, Nat.shiftRight_eq_div_pow, Nat.pow_one]

theorem byte_shiftLeft_one_toNat (v : Byte) : (v <<< 1).toNat = v.toNat * 2 % 256 := by
  rw [BitVec.toNat_shiftLeft, Nat.shiftLeft_eq, Nat.pow_one]

/-- What an instruction does whose whole effect is a result in `V[X]` of value `n`, then a flag of value `m`. -/
theorem exec_shift {m n : Nat} (h : exec i s = .next (s.setRegThenFlag x b f)) (hm : (flagByte f).toNat = m)
    (hn : b.toNat = n) :
    ∃ t, exec i s = .next t ∧ (t.reg vf).toNat = m ∧ (x ≠ vf → (t.reg x).toNat = n) ∧
      Frame { regs := [x, vf] } s t := by
  obtain ⟨t, ht, hvf, hx, hframe⟩ := exec_setRegThenFlag h hn
  exact ⟨t, ht, hvf ▸ hm, hx, hframe⟩

/-- Settles O35: the mode only selects the source; the flag is the source's low bit or its high bit. -/
theorem shiftsMoveTheirSourceByOne : Obligations.ShiftsMoveTheirSourceByOne := by
  intro x y s v hv
  rw [← s.shiftSource_eq_ite x y] at hv
  subst hv
  exact ⟨decode_encode (i := .shr x y) rfl, decode_encode (i := .shl x y) rfl,
    exec_shift rfl (flagByte_shiftedOutLow_toNat _) (byte_shiftRight_one_toNat _),
    exec_shift rfl (flagByte_shiftedOutHigh_toNat _) (byte_shiftLeft_one_toNat _)⟩

end Sys2Proof.Machine
end

section
/-! Index register (43_index.md): the loads of `I` by one lemma, and the two cases of the addition to `I`. -/

namespace Sys2Proof.Machine

variable {s : State} {i : Instr} {w : Word} {x : Reg}

/-! ## The loads of `I` (R140, R142) -/

/-- What an instruction does whose whole effect is one write of `I`. -/
theorem exec_setI (h : exec i s = .next (s.setI w)) :
    ∃ t, exec i s = .next t ∧ t.i = w ∧ Frame { index := true } s t :=
  ⟨_, h, s.setI_i w, (Keeps.setI (.inr rfl)).toFrame⟩

/-- Settles O36: the write of `I` is the zero-extended address. -/
theorem indexLoadGivesItsAddress : Obligations.IndexLoadGivesItsAddress := by
  intro nnn s
  obtain ⟨t, ht, hi, hframe⟩ := exec_setI (i := .ldI nnn) (s := s) rfl
  exact ⟨decode_encode (i := .ldI nnn) rfl, t, ht, hi, hi ▸ addrOperand_le nnn, hframe⟩

/-- Settles O37: the write of `I` is the glyph address, which fits in 16 bits for every byte. -/
theorem glyphLoadAppliesTheFormulaToTheWholeByte : Obligations.GlyphLoadAppliesTheFormulaToTheWholeByte := by
  intro x s
  obtain ⟨t, ht, hi, hframe⟩ := exec_setI (i := .ldF x) (s := s) rfl
  exact ⟨decode_encode (i := .ldF x) rfl, t, ht, hi ▸ s.glyphAddress_toNat x, hframe⟩

/-! ## The addition to `I` (R141) -/

/-- `zext_16(V[X])` keeps the value. -/
theorem State.wideReg_toNat (s : State) (x : Reg) : (s.wideReg x).toNat = (s.reg x).toNat :=
  BitVec.toNat_setWidth_of_le (by decide)

theorem State.index_add_wideReg_toNat (s : State) (x : Reg) :
    (s.i + s.wideReg x).toNat = (s.i.toNat + (s.reg x).toNat) % 65536 := by
  rw [BitVec.toNat_add, s.wideReg_toNat]

theorem indexOverflows_iff (r : Word) : indexOverflows r = true ↔ 0x1000 ≤ r.toNat := decide_eq_true_iff

theorem exec_addI_of_overflow (h : 0x1000 ≤ (s.i + s.wideReg x).toNat) :
    exec (.addI x) s = .next ((s.setI (s.i + s.wideReg x)).setFlag true) :=
  congrArg Host.Outcome.next (if_pos ((indexOverflows_iff _).2 h))

theorem exec_addI_of_fits (h : ¬0x1000 ≤ (s.i + s.wideReg x).toNat) :
    exec (.addI x) s = .next (s.setI (s.i + s.wideReg x)) :=
  congrArg Host.Outcome.next (if_neg (mt (indexOverflows_iff _).1 h))

/-- Settles O38: both cases write the wrapped sum to `I`; `VF` is written only where that sum is 0x1000 or more. -/
theorem indexAddFlagsAResultPastMemory : Obligations.IndexAddFlagsAResultPastMemory := by
  refine fun x s => ⟨decode_encode (i := .addI x) rfl, ?_⟩
  have hindex : Keeps { regs := [vf], index := true } s (s.setI (s.i + s.wideReg x)) := Keeps.setI (.inr rfl)
  by_cases h : 0x1000 ≤ (s.i + s.wideReg x).toNat
  · refine ⟨_, exec_addI_of_overflow h, s.index_add_wideReg_toNat x, ?_,
      (hindex.trans (Keeps.setReg List.mem_cons_self)).toFrame⟩
    exact (State.reg_setReg_self _ vf 1).trans (if_pos h).symm
  · exact ⟨_, exec_addI_of_fits h, s.index_add_wideReg_toNat x, (if_neg h).symm, hindex.toFrame⟩

end Sys2Proof.Machine
end

section
/-! Memory transfer (44_memory_transfer.md): FX55, FX65 and FX33 with their block in range as state equations, and the one
fault of a block that leaves memory. -/

namespace Sys2Proof.Machine

variable {s : State} {x : Reg}

/-! ## The blocks (20_memory.md R51, R54) -/

/-- A store of a block that leaves memory faults, whatever it would have made of the memory. -/
theorem complete_writeBytes_of_overrun {m : Memory} {a : Word} {bytes : List Byte} (k : Memory → State)
    (hb : bytes ≠ []) (h : 0x1000 < a.toNat + bytes.length) :
    complete (writeBytes m a bytes) k = .fault (.memOutOfRange (firstOutOfRange a)) := by
  rw [writeBytes_eq_error bytes m a hb h, complete_error, firstOutOfRange]

/-- The frame of a block stored in range. -/
theorem Keeps.setMem_load {c : Changes} {a : Word} {bytes : List Byte} (h : a.toNat + bytes.length ≤ 0x1000)
    (hb : c.memBase = a.toNat) (hl : c.memLen = bytes.length) : Keeps c s (s.setMem (s.mem.load a.toNat bytes)) :=
  Keeps.setMem (writeBytes_eq_ok bytes s.mem a (.inr h)) hb hl

/-- A block that ends in memory ends at 0x1000 or below, so the index after it does not wrap (R153). -/
theorem State.indexAfterBlock_toNat (h : s.i.toNat + x.val < 0x1000) :
    (s.indexAfterBlock x).toNat = if s.mode = .classic then s.i.toNat + x.val + 1 else s.i.toNat := by
  cases hm : s.mode with
  | classic =>
    have hadd : s.indexAfterBlock x = s.i + BitVec.ofNat 16 (x.val + 1) := by rw [State.indexAfterBlock, hm]
    rw [hadd, BitVec.toNat_add, BitVec.toNat_ofNat, if_pos rfl]
    omega
  | modern => rw [State.indexAfterBlock, hm]; rfl

/-! ## FX55 (R150) -/

theorem exec_storeRegs_of_overrun (h : 0x1000 ≤ s.i.toNat + x.val) :
    exec (.storeRegs x) s = .fault (.memOutOfRange (firstOutOfRange s.i)) := by
  have hlen := s.lowRegs_length x
  exact complete_writeBytes_of_overrun _ (List.ne_nil_of_length_eq_add_one hlen) (by omega)

/-- Settles O40: in range the stored block is `V[0]` to `V[X]`, then `I` is written; out of range the store faults. -/
theorem blockStoreWritesV0ToVxAtI : Obligations.BlockStoreWritesV0ToVxAtI := by
  refine fun x s => ⟨decode_encode (i := .storeRegs x) rfl, fun h => ?_, exec_storeRegs_of_overrun⟩
  have hlen := s.lowRegs_length x
  have hstore : Keeps { index := true, memBase := s.i.toNat, memLen := x.val + 1 } s
      (s.setMem (s.mem.load s.i.toNat (s.lowRegs x))) := Keeps.setMem_load (hlen ▸ h) rfl hlen.symm
  exact ⟨_, exec_storeRegs_of_fits h, fun k hk => byteAt_load_lowRegs s s.mem s.i.toNat hk,
    State.indexAfterBlock_toNat h, (hstore.trans (Keeps.setI (.inr rfl))).toFrame⟩

/-! ## FX65 (R151) -/

theorem exec_loadRegs_of_overrun (h : 0x1000 ≤ s.i.toNat + x.val) :
    exec (.loadRegs x) s = .fault (.memOutOfRange (firstOutOfRange s.i)) := by
  rw [exec, execLoadRegs, readBytes_eq_error _ _ _ (Nat.succ_ne_zero _) (Nat.lt_succ_of_le h), complete_error,
    firstOutOfRange]

/-- The bytes FX65 loads, that of `V[0]` first. -/
def State.loadedBytes (s : State) (x : Reg) : List Byte :=
  (List.range (x.val + 1)).map fun k => s.mem.byteAt (s.i.toNat + k)

theorem State.loadedBytes_length (s : State) (x : Reg) : (s.loadedBytes x).length = x.val + 1 := by
  rw [State.loadedBytes, List.length_map, List.length_range]

/-- FX65 with its block in range completes, with the bytes of the block in the low registers. -/
theorem exec_loadRegs_of_fits (h : s.i.toNat + x.val < 0x1000) :
    exec (.loadRegs x) s = .next ((s.setLowRegs (s.loadedBytes x)).setI (s.indexAfterBlock x)) := by
  rw [exec, execLoadRegs, readBytes_eq_ok _ _ _ (.inr h), complete_ok, State.loadedBytes]

/-- A loaded register holds the byte at its place in the block. -/
theorem State.reg_setLowRegs_loadedBytes (s : State) {x k : Reg} (h : k ≤ x) :
    (s.setLowRegs (s.loadedBytes x)).reg k = s.mem.byteAt (s.i.toNat + k.val) := by
  have hk : k.val < (s.loadedBytes x).length := s.loadedBytes_length x ▸ Nat.lt_succ_of_le h
  rw [State.reg_setLowRegs, if_pos hk, List.getD_eq_getElem _ _ hk]
  simp only [State.loadedBytes, List.getElem_map, List.getElem_range]

/-- Settles O41: in range the block goes to `V[0]` to `V[X]`, then `I` is written; out of range the load faults. -/
theorem blockLoadReadsV0ToVxAtI : Obligations.BlockLoadReadsV0ToVxAtI := by
  refine fun x s => ⟨decode_encode (i := .loadRegs x) rfl, fun h => ?_, exec_loadRegs_of_overrun⟩
  have hregs : ∀ r : Reg, r.val < (s.loadedBytes x).length → r ∈ (List.finRange 16).filter (fun k => k ≤ x) := by
    intro r hr
    rw [s.loadedBytes_length x] at hr
    exact List.mem_filter.2 ⟨List.mem_finRange r, decide_eq_true (Nat.le_of_lt_succ hr)⟩
  exact ⟨_, exec_loadRegs_of_fits h, fun k hk => s.reg_setLowRegs_loadedBytes hk,
    State.indexAfterBlock_toNat h, ((Keeps.setLowRegs hregs).trans (Keeps.setI (.inr rfl))).toFrame⟩

/-! ## FX33 (R152) -/

theorem exec_bcd_of_overrun (h : 0x1000 ≤ s.i.toNat + 2) :
    exec (.bcd x) s = .fault (.memOutOfRange (firstOutOfRange s.i)) :=
  complete_writeBytes_of_overrun _ (List.cons_ne_nil _ _) (Nat.lt_succ_of_le h)

/-- FX33 with its block in range completes, with the three digits as its only write. -/
theorem exec_bcd_of_fits (h : s.i.toNat + 2 < 0x1000) :
    exec (.bcd x) s = .next (s.setMem (s.mem.load s.i.toNat (bcdDigits (s.reg x)))) := by
  rw [exec, execBcd, writeBytes_eq_ok (bcdDigits (s.reg x)) s.mem s.i (.inr h), complete_ok]

/-- A stored block holds its byte `k` at `k` past its start. -/
theorem Memory.byteAt_load_add (m : Memory) (a : Nat) {bytes : List Byte} {k : Nat} (h : k < bytes.length) :
    (m.load a bytes).byteAt (a + k) = bytes[k] := by
  rw [Memory.byteAt_load, if_pos ⟨by omega, by omega⟩, Nat.add_sub_cancel_left, List.getD_eq_getElem _ _ h]

/-- The digits are those of the decimal numeral: each quotient and remainder fits in a byte. -/
theorem bcdDigits_map_toNat (v : Byte) :
    (bcdDigits v).map BitVec.toNat = [v.toNat / 100, v.toNat / 10 % 10, v.toNat % 10] := by
  have := v.isLt
  simp only [bcdDigits, List.map_cons, List.map_nil, BitVec.toNat_ofNat, List.cons.injEq, and_true]
  omega

/-- The value of a stored digit. -/
theorem byteAt_load_bcdDigits_toNat (m : Memory) (a : Nat) (v : Byte) {k : Nat} (h : k < 3) :
    ((m.load a (bcdDigits v)).byteAt (a + k)).toNat = [v.toNat / 100, v.toNat / 10 % 10, v.toNat % 10][k] := by
  have hk : k < (bcdDigits v).length := h
  rw [Memory.byteAt_load_add m a hk, ← List.getElem_map BitVec.toNat (h := by rwa [List.length_map])]
  simp only [bcdDigits_map_toNat]

/-- Settles O42: in range the three digits are stored at `I`; out of range the store faults. -/
theorem decimalConversionWritesThreeDigits : Obligations.DecimalConversionWritesThreeDigits := by
  refine fun x s => ⟨decode_encode (i := .bcd x) rfl, fun h => ?_, exec_bcd_of_overrun⟩
  have hstore : Keeps { memBase := s.i.toNat, memLen := 3 } s (s.setMem (s.mem.load s.i.toNat (bcdDigits (s.reg x)))) :=
    Keeps.setMem_load h rfl rfl
  exact ⟨_, exec_bcd_of_fits h, byteAt_load_bcdDigits_toNat _ _ _ (k := 0) (by decide),
    byteAt_load_bcdDigits_toNat _ _ _ (k := 1) (by decide), byteAt_load_bcdDigits_toNat _ _ _ (k := 2) (by decide),
    hstore.toFrame⟩

end Sys2Proof.Machine
end

section
/-! Display (45_display.md): CLS, and DXYN with the rows of its sprite in range as a state equation, related to the sprite
as a picture. -/

namespace Sys2Proof.Machine

variable {s t : State} {x y : Reg} {n : Nibble} {px py : Nat}

/-! ## CLS (R160) -/

theorem exec_cls (s : State) : exec .cls s = .next (s.setDisp blankDisplay) := rfl

/-- Settles O44: the one write is that of the blank display. -/
theorem clearScreenClearsEveryPixel : Obligations.ClearScreenClearsEveryPixel :=
  ⟨decode_encode (i := .cls) rfl,
    fun s => ⟨_, exec_cls s, fun px py _ _ => pixel_blank px py, (Keeps.setDisp rfl).toFrame⟩⟩

/-! ## The rows of a sprite that are read (R161, R163) -/

/-- The first row of a sprite is always on the screen, so only a sprite with no rows has none to read. -/
theorem visibleRows_eq_zero_iff (s : State) (y : Reg) (n : Nibble) : visibleRows (s.spriteY y) n = 0 ↔ n = 0 := by
  have hy : s.spriteY y < 32 := Nat.mod_lt _ (by decide)
  have hn : n = 0 ↔ n.toNat = 0 := BitVec.toNat_inj.symm
  rw [hn, visibleRows]
  omega

/-- The bytes DXYN reads, that of the top row first. -/
def State.spriteRows (s : State) (y : Reg) (n : Nibble) : List Byte :=
  (List.range (visibleRows (s.spriteY y) n)).map fun k => s.mem.byteAt (s.i.toNat + k)

theorem State.spriteRows_length (s : State) (y : Reg) (n : Nibble) :
    (s.spriteRows y n).length = visibleRows (s.spriteY y) n := by
  rw [State.spriteRows, List.length_map, List.length_range]

theorem State.spriteRows_fit (s : State) (y : Reg) (n : Nibble) : s.spriteY y + (s.spriteRows y n).length ≤ 32 :=
  s.spriteRows_length y n ▸ visibleRows_le s y n

theorem State.spriteRows_getD {k : Nat} (hk : k < visibleRows (s.spriteY y) n) :
    (s.spriteRows y n).getD k 0 = s.mem.byteAt (s.i.toNat + k) := by
  rw [List.getD_eq_getElem _ _ (by rwa [s.spriteRows_length])]
  simp only [State.spriteRows, List.getElem_map, List.getElem_range]

/-- The rows that are read cover what the sprite covers, clipped at the edges of the screen. -/
theorem rowsCover_spriteRows (s : State) (x0 : Nat) (y : Reg) (n : Nibble) (px py : Nat) :
    rowsCover x0 (s.spriteY y) (s.spriteRows y n) px py =
      (decide (px < 64 ∧ py < 32) && spriteCovers s x0 (s.spriteY y) n px py) := by
  have hrows : s.spriteY y ≤ py ∧ py < s.spriteY y + visibleRows (s.spriteY y) n ↔
      py < 32 ∧ s.spriteY y ≤ py ∧ py < s.spriteY y + n.toNat := by
    unfold visibleRows
    omega
  rw [Bool.eq_iff_iff]
  simp only [rowsCover, byteCovers, spriteCovers, s.spriteRows_length, Bool.and_eq_true, decide_eq_true_eq]
  by_cases hrow : s.spriteY y ≤ py ∧ py < s.spriteY y + visibleRows (s.spriteY y) n
  · rw [State.spriteRows_getD (by omega)]
    tauto
  · tauto

/-! ## DXYN (R161, R164) -/

/-- The display and the collision flag DXYN ends with. -/
def State.drawn (s : State) (x y : Reg) (n : Nibble) : Display × Bool :=
  drawRows (s.spriteX x) (s.spriteY y) (s.spriteRows y n) (s.disp, false)

theorem pixel_drawn (s : State) (x y : Reg) (n : Nibble) (hx : px < 64) (hy : py < 32) :
    pixel (s.drawn x y n).1 px py = (pixel s.disp px py ^^ spriteCovers s (s.spriteX x) (s.spriteY y) n px py) := by
  rw [State.drawn, (drawRows_spec _ _ (s.spriteRows_fit y n) _).1, rowsCover_spriteRows,
    decide_eq_true ⟨hx, hy⟩, Bool.true_and]

theorem drawn_hit (s : State) (x y : Reg) (n : Nibble) :
    (s.drawn x y n).2 = true ↔ ∃ px py, px < 64 ∧ py < 32 ∧ pixel s.disp px py = true ∧
      spriteCovers s (s.spriteX x) (s.spriteY y) n px py = true := by
  rw [State.drawn, (drawRows_spec _ _ (s.spriteRows_fit y n) _).2]
  simp only [rowsCover_spriteRows, Bool.and_eq_true, decide_eq_true_eq, Bool.false_eq_true, false_or]
  exact exists_congr fun px => exists_congr fun py => by tauto

/-- DXYN with the rows it reads in range completes: it writes the display, then the flag. -/
theorem exec_drw_of_fits (h : n = 0 ∨ s.i.toNat + visibleRows (s.spriteY y) n ≤ 0x1000) :
    exec (.drw x y n) s = .next ((s.setDisp (s.drawn x y n).1).setFlag (s.drawn x y n).2) := by
  rw [exec, execDrw, readBytes_eq_ok _ _ _ (h.imp_left (visibleRows_eq_zero_iff s y n).2), complete_ok, State.drawn,
    State.spriteRows]

theorem exec_drw_of_overrun (hn : n ≠ 0) (h : 0x1000 < s.i.toNat + visibleRows (s.spriteY y) n) :
    exec (.drw x y n) s = .fault (.memOutOfRange (firstOutOfRange s.i)) := by
  rw [exec, execDrw, readBytes_eq_error _ _ _ (mt (visibleRows_eq_zero_iff s y n).1 hn) h, complete_error,
    firstOutOfRange]

theorem flagByte_eq_zero_or_one (f : Bool) : flagByte f = 0 ∨ flagByte f = 1 := by
  cases f
  · exact .inl flagByte_false
  · exact .inr flagByte_true

theorem flagByte_eq_one_iff (f : Bool) : flagByte f = 1 ↔ f = true := by
  cases f <;> decide

/-- Settles O45: in range the drawn rows cover what the clipped sprite covers; out of range the read faults. -/
theorem drawXorsTheSpriteAndReportsCollision : Obligations.DrawXorsTheSpriteAndReportsCollision := by
  rintro x y n s _ _ rfl rfl
  refine ⟨decode_encode (i := .drw x y n) rfl, fun h => ?_, fun h => exec_drw_of_overrun h.1 h.2⟩
  have hflag : ((s.setDisp (s.drawn x y n).1).setFlag (s.drawn x y n).2).reg vf = flagByte (s.drawn x y n).2 :=
    State.reg_setReg_self _ vf _
  refine ⟨_, exec_drw_of_fits h, fun px py hx hy => pixel_drawn s x y n hx hy, ?_, ?_,
    ((Keeps.setDisp rfl).trans (Keeps.setReg List.mem_cons_self)).toFrame⟩
  · exact hflag ▸ flagByte_eq_zero_or_one _
  · rw [hflag, flagByte_eq_one_iff]
    exact drawn_hit s x y n

/-! ## Drawing twice (R164, log 12) -/

/-- A sprite is the same picture after any instruction that stores nothing and keeps `I`. -/
theorem spriteCovers_congr (hi : t.i = s.i) (hm : ∀ a, t.mem.byteAt a = s.mem.byteAt a) (x0 y0 : Nat) (n : Nibble)
    (px py : Nat) : spriteCovers t x0 y0 n px py = spriteCovers s x0 y0 n px py := by
  rw [spriteCovers, spriteCovers, hi, hm]

/-- Settles O46, from O45 for both draws: the first keeps the sprite and its place, and a pixel exclusive-ored twice with
the same bit is as it was. -/
theorem drawingTwiceRestoresTheDisplay : Obligations.DrawingTwiceRestoresTheDisplay := by
  intro x y n s x0 y0 hx0 hy0 hx hy hfits
  obtain ⟨-, hdraw, -⟩ := drawXorsTheSpriteAndReportsCollision x y n s x0 y0 hx0 hy0
  obtain ⟨t, ht, htpix, -, -, hframe⟩ := hdraw hfits
  have hi : t.i = s.i := hframe.index rfl
  have hregx : t.reg x = s.reg x := hframe.regs x (mt List.mem_singleton.1 hx)
  have hregy : t.reg y = s.reg y := hframe.regs y (mt List.mem_singleton.1 hy)
  have hcovers := spriteCovers_congr hi (fun a => hframe.mem a fun ha => Nat.not_lt.2 ha.1 ha.2) x0 y0 n
  obtain ⟨-, hdraw', -⟩ := drawXorsTheSpriteAndReportsCollision x y n t x0 y0 (hregx ▸ hx0) (hregy ▸ hy0)
  obtain ⟨u, hu, hupix, -, huflag, -⟩ := hdraw' (hi ▸ hfits)
  refine ⟨t, u, ht, hu, display_ext fun px py hpx hpy => ?_, huflag.trans ?_⟩
  · rw [hupix px py hpx hpy, htpix px py hpx hpy, hcovers, Bool.xor_assoc, Bool.xor_self, Bool.xor_false]
  · refine exists_congr fun px => exists_congr fun py => and_congr_right fun hpx => and_congr_right fun hpy => ?_
    rw [hcovers, htpix px py hpx hpy]
    exact and_congr_left fun hc => by rw [hc, Bool.xor_true, Bool.not_eq_true']

end Sys2Proof.Machine
end

section
/-! The random instruction: what CXNN ends with, and which values a masked draw can take (46_random.md). -/

namespace Sys2Proof.Machine

variable {s : State} {x : Reg} {nn r : Byte}

/-! ## CXNN (R170, R171) -/

/-- For the immediate 0 the range is empty: nothing is drawn (92_eei_decisions.md D15). -/
theorem exec_rnd_zero (x : Reg) (s : State) : exec (.rnd x 0) s = .next (s.setReg x 0) := rfl

theorem exec_rnd_of_ne_zero (h : nn ≠ 0) : exec (.rnd x nn) s = .next (s.takeFresh.setReg x (s.rand nn &&& nn)) :=
  if_neg h

/-- Settles O47, by whether the range of the draw is empty. -/
theorem randomMasksADrawBelowItsImmediate : Obligations.RandomMasksADrawBelowItsImmediate := by
  refine fun x nn s => ⟨decode_encode (i := .rnd x nn) rfl, ?_⟩
  by_cases hnn : nn = 0
  · subst hnn
    obtain ⟨t, ht, hx, hframe⟩ := exec_setReg (exec_rnd_zero x s)
    exact ⟨t, ht, fun _ => ⟨hx, hframe⟩, fun h => absurd rfl h⟩
  · exact ⟨_, exec_rnd_of_ne_zero hnn, fun h => absurd h hnn, fun _ =>
      ⟨⟨s.rand nn, s.rand_lt hnn, State.reg_setReg_self _ x _⟩,
        ((Keeps.takeFresh rfl).trans (Keeps.setReg List.mem_cons_self)).toFrame⟩⟩

/-! ## The values of a masked draw (R170, corner cases 1 and 2) -/

/-- Masking does not raise a draw, so one below the immediate does not reach it. -/
theorem and_ne_of_toNat_lt (h : r.toNat < nn.toNat) : r &&& nn ≠ nn := fun heq => by
  have hle : (r &&& nn).toNat ≤ r.toNat := BitVec.toNat_and r nn ▸ Nat.and_le_left
  exact Nat.not_le.2 h (heq ▸ hle)

/-- A draw below a power of two has the one bit of it clear. -/
theorem and_eq_zero_of_toNat_lt_two_pow {k : Nat} (hk : nn.toNat = 2 ^ k) (h : r.toNat < nn.toNat) : r &&& nn = 0 := by
  have hbit : r.toNat.testBit k = false := Nat.testBit_lt_two_pow (hk ▸ h)
  apply BitVec.eq_of_toNat_eq
  rw [BitVec.toNat_and, hk, Nat.and_two_pow, hbit, Bool.toNat_false, Nat.zero_mul]
  rfl

/-- Settles O48, from O47: whatever draw below the immediate is masked. -/
theorem randomNeverYieldsItsImmediate : Obligations.RandomNeverYieldsItsImmediate := by
  intro x nn s t ht
  obtain ⟨-, t', ht', hzero, hdraw⟩ := randomMasksADrawBelowItsImmediate x nn s
  obtain rfl : t = t' := Host.Outcome.next.inj (ht.symm.trans ht')
  by_cases hnn : nn = 0
  · exact ⟨fun h => absurd hnn h, fun _ => (hzero hnn).1⟩
  · obtain ⟨⟨r, hr, hreg⟩, -⟩ := hdraw hnn
    exact ⟨fun _ => hreg ▸ and_ne_of_toNat_lt hr, fun ⟨k, hk⟩ => hreg ▸ and_eq_zero_of_toNat_lt_two_pow hk hr⟩

end Sys2Proof.Machine
end

section
/-! The timer unit (47_timers.md): the countdown of a running core, its iteration, and the three timer instructions. -/

namespace Sys2Proof.Machine

variable {s : State}

/-! ## One countdown (R178) -/

/-- The timer on either side of R178's condition. -/
theorem countDown_eq (b : Byte) : countDown b = if 0 < b.toNat then b - 1 else b := rfl

theorem decTimers_status_of_running (hs : s.status = .running) : (decTimers s).status = .running := by
  rw [decTimers_of_running hs, State.setSt_status, State.setDt_status, hs]

theorem decTimers_dt_toNat (hs : s.status = .running) : (decTimers s).dt.toNat = s.dt.toNat - 1 := by
  rw [decTimers_of_running hs, State.setSt_dt, State.setDt_dt, countDown_toNat]

theorem decTimers_st_toNat (hs : s.status = .running) : (decTimers s).st.toNat = s.st.toNat - 1 := by
  rw [decTimers_of_running hs, State.setSt_st, countDown_toNat]

/-- A step whose listed transaction is `DecTimers` completes with its effect, the transaction taken off the list (log 3). -/
theorem step_of_decTimers {rest : List HostOp} (h : s.host = .decTimers :: rest) :
    step s = .next (decTimers { s with host := rest }) :=
  step_of_host h

/-- Settles O21: a running core sets each timer to its decrement, a faulted one stays as it is. -/
theorem decTimersDecrementsPositiveTimers : Obligations.DecTimersDecrementsPositiveTimers := by
  intro s rest hhost
  refine ⟨fun hs => ⟨_, step_of_decTimers hhost, ?_⟩, fun f hf => ?_⟩
  · have hrun : ({ s with host := rest } : State).status = .running := hs
    rw [decTimers_of_running hrun]
    exact ⟨countDown_eq s.dt, countDown_eq s.st, rfl⟩
  · have hfault : ({ s with host := rest } : State).status = .faulted f := hf
    rw [step_of_decTimers hhost, decTimers_of_faulted hfault]

/-! ## Successive countdowns (R178, R180) -/

/-- A running core stays running under the countdown, so each further one takes another 1 off, stopping at 0. -/
theorem decTimers_iterate_toNat (hs : s.status = .running) (n : Nat) :
    (decTimers^[n] s).dt.toNat = s.dt.toNat - n ∧ (decTimers^[n] s).st.toNat = s.st.toNat - n := by
  induction n generalizing s with
  | zero => exact ⟨rfl, rfl⟩
  | succ n ih =>
    obtain ⟨hdt, hst⟩ := ih (decTimers_status_of_running hs)
    rw [Function.iterate_succ_apply, hdt, hst, decTimers_dt_toNat hs, decTimers_st_toNat hs]
    omega

theorem soundActive_iff (s : State) : s.soundActive = true ↔ 0 < s.st.toNat := by
  rw [State.soundActive, bne_iff_ne, Nat.pos_iff_ne_zero, ne_eq, ne_eq, BitVec.toNat_eq]
  rfl

/-- Settles O22: the sound query asks whether what is left of `ST` after `n` countdowns is positive. -/
theorem countdownStopsAtZero : Obligations.CountdownStopsAtZero := by
  intro s n hs
  obtain ⟨hdt, hst⟩ := decTimers_iterate_toNat hs n
  refine ⟨hdt, hst, ?_⟩
  rw [soundActive_iff, hst, Nat.sub_pos_iff_lt]

/-! ## The timer instructions (R175 to R177) -/

theorem exec_ldVxDt (x : Reg) (s : State) : exec (.ldVxDt x) s = .next (s.setReg x s.dt) := rfl

theorem exec_ldDtVx (x : Reg) (s : State) : exec (.ldDtVx x) s = .next (s.setDt (s.reg x)) := rfl

theorem exec_ldStVx (x : Reg) (s : State) : exec (.ldStVx x) s = .next (s.setSt (s.reg x)) := rfl

/-- Settles O23: each of the three is one write of the state. -/
theorem timerInstructionsMoveTheTimers : Obligations.TimerInstructionsMoveTheTimers :=
  fun x s => ⟨exec_setReg (exec_ldVxDt x s),
    ⟨_, exec_ldDtVx x s, s.setDt_dt _, (Keeps.setDt rfl).toFrame⟩,
    ⟨_, exec_ldStVx x s, s.setSt_st _, (Keeps.setSt rfl).toFrame⟩,
    decode_encode (i := .ldVxDt x) rfl, decode_encode (i := .ldDtVx x) rfl, decode_encode (i := .ldStVx x) rfl⟩

end Sys2Proof.Machine
end

section
/-! Keyboard (48_keyboard.md): the two key tests as skips, and the two cases of the wait for a key. -/

namespace Sys2Proof.Machine

variable {s : State} {x k : Reg}

/-! ## The key tests (R185, R186, R188) -/

theorem keyAt_reg_eq_ok (ks : Keys) (h : (s.reg x).toNat = k.val) : keyAt ks (s.reg x) = .ok ks[k.val] := by
  rw [keyAt_eq_ok ks (h ▸ k.isLt)]
  simp only [h]

theorem exec_skp_of_index (h : (s.reg x).toNat = k.val) : exec (.skp x) s = .next (s.skipIf s.keys[k.val]) := by
  rw [exec, execSkp, keyAt_reg_eq_ok s.keys h, complete_ok]

theorem exec_sknp_of_index (h : (s.reg x).toNat = k.val) : exec (.sknp x) s = .next (s.skipIf !s.keys[k.val]) := by
  rw [exec, execSknp, keyAt_reg_eq_ok s.keys h, complete_ok]

theorem exec_skp_of_index_out_of_range (h : 15 < (s.reg x).toNat) :
    exec (.skp x) s = .fault (.keyIndexOutOfRange (s.reg x)) := by
  rw [exec, execSkp, keyAt_eq_error s.keys h, complete_error]

theorem exec_sknp_of_index_out_of_range (h : 15 < (s.reg x).toNat) :
    exec (.sknp x) s = .fault (.keyIndexOutOfRange (s.reg x)) := by
  rw [exec, execSknp, keyAt_eq_error s.keys h, complete_error]

/-- Settles O49: with an index in range both forms are skips, on the key and on its negation; above 15 the lookup faults. -/
theorem keySkipsTestTheKeyNumberedByVx : Obligations.KeySkipsTestTheKeyNumberedByVx :=
  fun x _ => ⟨decode_encode (i := .skp x) rfl, decode_encode (i := .sknp x) rfl,
    fun _ hk => ⟨exec_skip (exec_skp_of_index hk) Iff.rfl,
      exec_skip (exec_sknp_of_index hk) (Iff.of_eq (Bool.not_eq_true' _))⟩,
    fun h => ⟨exec_skp_of_index_out_of_range h, exec_sknp_of_index_out_of_range h⟩⟩

/-! ## The wait for a key (R187, R189, R190) -/

theorem exec_waitKey_of_pressed (h : lowestPressed s.keys = some k) :
    exec (.waitKey x) s = .next (s.setReg x (BitVec.ofNat 8 k.val)) := by
  simp only [exec, execWaitKey, h]

theorem exec_waitKey_of_none (h : ∀ k : Reg, s.keys[k.val] = false) :
    exec (.waitKey x) s = .next (s.setPc (s.pc - 2)) := by
  simp only [exec, execWaitKey, lowestPressed_eq_none.2 h]

/-- A key index fits in a byte. -/
theorem ofNat_key_toNat (k : Reg) : (BitVec.ofNat 8 k.val).toNat = k.val :=
  Nat.mod_eq_of_lt (k.isLt.trans (by decide))

/-- Settles O50: the smallest pressed key is the one the search finds, and with no key the one write is that of `PC`. -/
theorem getKeyTakesTheLowestOrRewinds : Obligations.GetKeyTakesTheLowestOrRewinds := by
  refine fun x s => ⟨decode_encode (i := .waitKey x) rfl, fun k hk hlow => ?_, fun hnone => ?_⟩
  · obtain ⟨t, ht, hx, hframe⟩ := exec_setReg (exec_waitKey_of_pressed (x := x) (lowestPressed_eq_some.2 ⟨hk, hlow⟩))
    exact ⟨t, ht, hx ▸ ofNat_key_toNat k, hframe⟩
  · exact ⟨_, exec_waitKey_of_none hnone, s.setPc_pc _, (Keeps.setPc rfl).toFrame⟩

/-- The rewind takes back the advance of the fetch (R187). -/
theorem setPc_sub_two_of_advanced (ks : Keys) (rest : List HostOp) :
    ({ s with host := rest, keys := ks, pc := s.pc + 2 } : State).setPc (s.pc + 2 - 2) =
      { s with host := rest, keys := ks } := by
  rw [BitVec.add_sub_cancel]
  rfl

/-- Settles O51: the rewind restores `PC`, so only the entry in the history is left as a change. -/
theorem keyWaitChangesOnlyTheHistory : Obligations.KeyWaitChangesOnlyTheHistory := by
  intro s ks rest x hs hh hf hnone
  have hd : decode (wordXNN 0xF x 0x0A) = .waitKey x := decode_encode (i := .waitKey x) rfl
  rw [step_of_tick hs hh hf, hd, exec_waitKey_of_none hnone, setPc_sub_two_of_advanced, recordAfter_next]
  rfl

end Sys2Proof.Machine
end

section
/-! Exceptions (60_exceptions.md): the diagnostics of an instruction and of a tick, and which instructions can fault. -/

namespace Sys2Proof.Machine

variable {s t : State} {i : Instr}

/-! ## Diagnostics (R201 to R203, R208) -/

theorem exec_sys (nnn : Addr12) (s : State) :
    exec (.sys nnn) s = .next (s.emit (.machineRoutineUnsupported (addrOperand nnn))) := rfl

/-- The word 0NNN is its zero-extended address field. -/
theorem wordNNN_zero (nnn : Addr12) : wordNNN 0x0 nnn = addrOperand nnn := by
  apply BitVec.eq_of_toNat_eq
  rw [addrOperand_toNat, wordNNN, BitVec.toNat_append]
  exact Nat.zero_or _

/-- Settles O30: the one write is the diagnostic, which carries the word. -/
theorem machineRoutineOnlyIssuesItsDiagnostic : Obligations.MachineRoutineOnlyIssuesItsDiagnostic :=
  fun nnn s => ⟨decode_sys, _, exec_sys nnn s, wordNNN_zero nnn ▸ s.emit_diags _, (Keeps.emit rfl).toFrame⟩

/-- An instruction that completes has issued at most one diagnostic. -/
theorem exec_diags (h : exec i s = .next t) : t.diags = s.diags ∨ ∃ d, t.diags = s.diags ++ [d] := by
  by_cases hm : mayEmit i = false
  · exact .inl ((exec_keeps h).diags hm)
  cases i <;> simp only [mayEmit, not_true_eq_false] at hm
  case sys | unrecognized => cases h; exact .inr ⟨_, s.emit_diags _⟩
  case ret =>
    obtain rfl | ⟨_, _, -, rfl⟩ := exec_ret_cases h
    · exact .inr ⟨_, s.emit_diags _⟩
    · exact .inl rfl

@[simp] theorem State.record_diags (s : State) (i : Instr) : (s.record i).diags = s.diags := by
  obtain ⟨_, hr, -⟩ := s.record_eq i
  rw [hr]

/-- Settles O19: a completed tick is idle or runs one instruction, and the history entry issues nothing. -/
theorem tickIssuesAtMostOneDiagnostic : Obligations.TickIssuesAtMostOneDiagnostic := by
  intro s t ks h
  obtain ⟨_, -, rfl⟩ | ⟨-, w, u, -, hu, rfl⟩ := tick_cases h
  · exact .inl rfl
  · rw [State.record_diags]
    exact exec_diags (s := (s.setKeys ks).advance) hu

/-! ## Faults (R205 to R207) -/

theorem le_firstOutOfRange (a : Word) : 0x1000 ≤ (firstOutOfRange a).toNat := by
  unfold firstOutOfRange
  split
  · assumption
  · decide

/-- The one fault of a block read is that of its first address out of range (20_memory.md R51). -/
theorem readBytes_error {m : Memory} {a : Word} {n : Nat} {f : Fault} (h : readBytes m a n = .error f) :
    f = .memOutOfRange (firstOutOfRange a) := by
  by_cases hr : n = 0 ∨ a.toNat + n ≤ 0x1000
  · rw [readBytes_eq_ok m n a hr] at h
    cases h
  · rw [readBytes_eq_error m n a (by tauto) (by omega)] at h
    cases h
    rfl

/-- The one fault of a block write is that of its first address out of range (20_memory.md R51). -/
theorem writeBytes_error {m : Memory} {a : Word} {bytes : List Byte} {f : Fault} (h : writeBytes m a bytes = .error f) :
    f = .memOutOfRange (firstOutOfRange a) := by
  by_cases hr : bytes = [] ∨ a.toNat + bytes.length ≤ 0x1000
  · rw [writeBytes_eq_ok bytes m a hr] at h
    cases h
  · rw [writeBytes_eq_error bytes m a (by tauto) (by omega)] at h
    cases h
    rfl

/-- The instructions that access memory or index the key vector by a register. -/
def mayFault : Instr → Bool
  | .storeRegs _ | .loadRegs _ | .bcd _ | .drw _ _ _ | .skp _ | .sknp _ => true
  | _ => false

/-- Every other instruction completes in every state. -/
theorem exec_completes (h : mayFault i = false) (s : State) : ∃ t, exec i s = .next t := by
  cases i
  case storeRegs | loadRegs | bcd | drw | skp | sknp => cases h
  case ret =>
    cases hs : s.stack with
    | nil => exact ⟨_, exec_ret_of_nil hs⟩
    | cons w rest => exact ⟨_, exec_ret_of_cons hs⟩
  case waitKey =>
    cases hk : lowestPressed s.keys with
    | none => exact ⟨_, exec_waitKey_of_none (lowestPressed_eq_none.1 hk)⟩
    | some k => exact ⟨_, exec_waitKey_of_pressed hk⟩
  case rnd x nn =>
    by_cases hnn : nn = 0
    · exact ⟨_, if_pos hnn⟩
    · exact ⟨_, exec_rnd_of_ne_zero hnn⟩
  all_goals exact ⟨_, rfl⟩

theorem exec_ne_refused (i : Instr) (s : State) (r : Refusal) : exec i s ≠ .refused r := by
  by_cases hm : mayFault i = false
  · obtain ⟨t, ht⟩ := exec_completes hm s
    simp [ht]
  cases i <;> simp only [mayFault, not_true_eq_false] at hm
  case storeRegs | loadRegs | bcd | drw | skp | sknp => exact complete_ne_refused _ _ r

/-- The faults of an instruction: the memory fault of the four that access memory, the key fault of the two key tests. -/
theorem exec_fault_cases {f : Fault} (h : exec i s = .fault f) :
    (f = .memOutOfRange (firstOutOfRange s.i) ∧
      ((∃ x, i = .storeRegs x) ∨ (∃ x, i = .loadRegs x) ∨ (∃ x, i = .bcd x) ∨ ∃ x y n, i = .drw x y n)) ∨
    ∃ x, f = .keyIndexOutOfRange (s.reg x) ∧ 15 < (s.reg x).toNat ∧ (i = .skp x ∨ i = .sknp x) := by
  by_cases hm : mayFault i = false
  · obtain ⟨t, ht⟩ := exec_completes hm s
    simp [ht] at h
  cases i <;> simp only [mayFault, not_true_eq_false] at hm
  case storeRegs x => exact .inl ⟨writeBytes_error (complete_eq_fault h), .inl ⟨x, rfl⟩⟩
  case loadRegs x => exact .inl ⟨readBytes_error (complete_eq_fault h), .inr (.inl ⟨x, rfl⟩)⟩
  case bcd x => exact .inl ⟨writeBytes_error (complete_eq_fault h), .inr (.inr (.inl ⟨x, rfl⟩))⟩
  case drw x y n => exact .inl ⟨readBytes_error (complete_eq_fault h), .inr (.inr (.inr ⟨x, y, n, rfl⟩))⟩
  case skp x | sknp x =>
    obtain ⟨hf, hx⟩ := keyAt_error (complete_eq_fault h)
    exact .inr ⟨x, hf, hx, by simp⟩

/-- Settles O54, from the faults of each instruction; the first address out of range is 0x1000 or more. -/
theorem onlyTheTwoFaultsCanOccur : Obligations.OnlyTheTwoFaultsCanOccur := by
  refine fun i s => ⟨exec_ne_refused i s, fun f h => ?_⟩
  obtain ⟨hf, hi⟩ | hkey := exec_fault_cases h
  · exact .inl ⟨_, hf, le_firstOutOfRange s.i, hi⟩
  · exact .inr hkey

end Sys2Proof.Machine
end

section
/-! Reset (70_reset_and_hazards.md): what the memory of the reset state holds, and the bound on the program. -/

namespace Sys2Proof.Machine

variable {program : List Byte} {a : Nat}

/-- The memory after `Reset`: the font at 0x050, then the program at 0x200 (R231). -/
def resetMemory (font : Font) (program : List Byte) : Memory :=
  Memory.load (Memory.load [] Config.fontBase font.toList) Config.progBase program

theorem resetState_mem (mode : Mode) (font : Font) (program : List Byte) (s : State) :
    (resetState mode font program s).mem = resetMemory font program := rfl

theorem resetMemory_byteAt_program (font : Font) {j : Nat} (hj : j < program.length) :
    (resetMemory font program).byteAt (0x200 + j) = program[j] :=
  Memory.byteAt_load_add _ _ hj

theorem resetMemory_byteAt_of_not_program (font : Font) (h : ¬(0x200 ≤ a ∧ a < 0x200 + program.length)) :
    (resetMemory font program).byteAt a = (Memory.load [] Config.fontBase font.toList).byteAt a := by
  rw [resetMemory, Memory.byteAt_load, if_neg h]

/-- The font ends below the program, so the program overwrites none of it. -/
theorem resetMemory_byteAt_font (font : Font) (program : List Byte) {j : Nat} (hj : j < 80) :
    (resetMemory font program).byteAt (0x050 + j) = font[j] := by
  have hlen : j < font.toList.length := by rwa [Vector.length_toList]
  rw [resetMemory_byteAt_of_not_program font (by omega), Memory.byteAt_load_add _ _ hlen, Vector.getElem_toList]

/-- Outside font and program the memory is as it was with nothing listed (decision D7). -/
theorem resetMemory_byteAt_of_not_loaded (font : Font) (hfont : ¬(0x050 ≤ a ∧ a < 0x0A0))
    (hprog : ¬(0x200 ≤ a ∧ a < 0x200 + program.length)) : (resetMemory font program).byteAt a = 0x00 := by
  rw [resetMemory_byteAt_of_not_program font hprog, Memory.byteAt_load, Vector.length_toList, if_neg hfont]
  exact initial_of_not_font hfont

/-- Settles O8: registers, timers, stack, display and history are those of `State.reset`, the memory is the reset memory. -/
theorem resetPutsEveryPieceAtItsValue : Obligations.ResetPutsEveryPieceAtItsValue := by
  intro mode font program s hfits
  obtain ⟨hreg, hi, hpc, hstack, hdt, hst, hhistory, hstatus, hpixel, -, -⟩ := resetStateHoldsTheListedValues
  refine ⟨_, performReset_of_fits s hfits, rfl, hreg, hi, hdt, hst, hstack, hpc, fun px py _ _ => hpixel px py,
    hhistory, hstatus, ?_⟩
  rw [resetState_mem]
  exact ⟨fun _ hj => resetMemory_byteAt_font font program hj, fun _ hj => resetMemory_byteAt_program font hj,
    fun _ _ hfont hprog => resetMemory_byteAt_of_not_loaded font hfont hprog⟩

/-- Settles O9: the bound on the program's length fails. -/
theorem resetRefusesAnImageThatDoesNotFit : Obligations.ResetRefusesAnImageThatDoesNotFit :=
  fun _ _ _ _ h => if_neg (Nat.not_le.2 h)

end Sys2Proof.Machine
end
